-- ==== Sys2Proof/Word.lean ====
section
/-! DEFINITION. The value types of the CORE, at the widths the spec fixes (00_scope.md R7, R8). Bit 0 of any value
is its least significant bit and every value is unsigned (R9). -/

namespace Sys2Proof

/-- A byte, `BYTE_BITS` = 8 (R7). -/
abbrev Byte := BitVec 8

/-- A packed or encoded word, `WORD_BITS` = 32 (R7). -/
abbrev Word := BitVec 32

/-- A lane number, and the lane counter's width `CNT_BITS` = 2 (R8, R21). -/
abbrev Lane := BitVec 2

/-- A set of byte lanes, one bit for each of the four (R41, `b_valid`). -/
abbrev LaneMask := BitVec 4

/-- An operation code, `OP_BITS` = 4 (R8). -/
abbrev OpCode := BitVec 4

/-- A command word, `CMD_BITS` = 36 (R8, R60). -/
abbrev Cmd := BitVec 36

end Sys2Proof
end

