-- ==== Sys2Proof/Config.lean ====
section
/-! DEFINITION. What is fixed for the machine and what a claim may name as its parameter. The CORE has no
configuration (10_state.md R25) and no free value (93_implementation_defined.md: every result is determined), so no
opaque constant stands here. -/

namespace Sys2Proof.Config

/-- Bytes in a word, `LANES` (R7). -/
abbrev lanes : Nat := 4

/-- Bits in a byte, `BYTE_BITS` (R7). -/
abbrev byteBits : Nat := 8

/-- Bits in a word, `WORD_BITS` (R7). -/
abbrev wordBits : Nat := 32

/-- Bits in a command word, `CMD_BITS` (R8). -/
abbrev cmdBits : Nat := 36

/-- `INPUT_DOMAIN` (92_eei_decisions.md P1), the instance of the round-trip law R169: no byte of the text is zero. -/
def nulFree (t : List Byte) : Bool := t.all (fun b => b != 0)

/-- `INPUT_DOMAIN` (P1), the instance of the caller's ASCII gate (R213, R217): every byte is below 128. -/
def ascii (t : List Byte) : Bool := t.all (fun b => b < 128)

end Sys2Proof.Config
end

