-- ==== Sys2Proof/Syntax.lean ====
section
/-! DEFINITION. The commands of the CORE: one constructor per row of spec/opcode_table.json. An operand has the width
of its field (30_encoding.md R62), so a value wider than the field is no term (92_eei_decisions.md D23). The bits an
operation ignores (R66) are no operand and stand in no constructor. -/

namespace Sys2Proof

/-- A command (R63): ten operations on thirteen codes, and the three reserved codes. -/
inductive Instr where
  /-- `NOP` (R160). -/
  | nop
  /-- `PUSH b` (R93). -/
  | push (b : Byte)
  /-- `FLUSH` (R94). -/
  | flush
  /-- `UNPACK w` (R96). -/
  | unpack (w : Word)
  /-- `LANE s, w` (R97). -/
  | lane (s : Lane) (w : Word)
  /-- `FWD w` (R121). -/
  | fwd (w : Word)
  /-- `INV e` (R141). -/
  | inv (e : Word)
  /-- `ENCB b` (R161). -/
  | encb (b : Byte)
  /-- `ENCF` (R162). -/
  | encf
  /-- `DECW e` (R163). -/
  | decw (e : Word)
  /-- Reserved operation code `0xD` (R65, R190). -/
  | reservedD
  /-- Reserved operation code `0xE` (R65, R190). -/
  | reservedE
  /-- Reserved operation code `0xF` (R65, R190). -/
  | reservedF
  deriving DecidableEq, Repr

end Sys2Proof
end

