-- ==== Sys2Proof/Decode.lean ====
section
/-! DEFINITION. From a command word to a command and back (30_encoding.md). Decoding is total on the 2^36 command
words and needs the operation code only (R64); a number of 2^36 or more is no command word and is rejected by name
(92_eei_decisions.md D23; notes/assumptions/6.md). The encoder writes the canonical word: ignored bits zero (R66). -/

namespace Sys2Proof

/-! ## The fields of a command word (R60, R61, R62) -/

/-- `cmd[35:32]` (R60). -/
def opField (c : Cmd) : OpCode := c.extractLsb' 32 4

/-- `sel = cmd[33:32]` (R62). -/
def selField (c : Cmd) : Lane := c.extractLsb' 32 2

/-- `w = cmd[31:0]` (R62). -/
def wordField (c : Cmd) : Word := c.extractLsb' 0 32

/-- `b = cmd[7:0]` (R62). -/
def byteField (c : Cmd) : Byte := c.extractLsb' 0 8

/-! ## The decoder -/

/-- The command a command word stands for: the binary column of R63, bits 35, 34, 33, 32 in that order (R64). -/
def decode (c : Cmd) : Instr :=
  match c.getLsbD 35, c.getLsbD 34, c.getLsbD 33, c.getLsbD 32 with
  | false, false, false, false => .nop
  | false, false, false, true => .push (byteField c)
  | false, false, true, false => .flush
  | false, false, true, true => .unpack (wordField c)
  | false, true, _, _ => .lane (selField c) (wordField c)
  | true, false, false, false => .fwd (wordField c)
  | true, false, false, true => .inv (wordField c)
  | true, false, true, false => .encb (byteField c)
  | true, false, true, true => .encf
  | true, true, false, false => .decw (wordField c)
  | true, true, false, true => .reservedD
  | true, true, true, false => .reservedE
  | true, true, true, true => .reservedF

/-- Why a number is no command word. -/
inductive DecodeError where
  /-- It needs more than the 36 bits of the `cmd` port (R60; 93_implementation_defined.md U1). -/
  | widerThanCommand
  deriving DecidableEq, Repr

/-- The decoder's boundary towards unbounded numbers: it refuses what the port cannot hold and never truncates (D23). -/
def decodeNat (w : Nat) : Except DecodeError Instr :=
  if w < 2 ^ Config.cmdBits then .ok (decode (BitVec.ofNat 36 w)) else .error .widerThanCommand

/-- The command the decoder reads from the table's word `w` (bit 0 of `w` is bit 0 of `cmd`); the row's width `nbits`
plays no part, since there is one length only (R60). -/
def decodeTableWord (nbits w : Nat) : Option Instr :=
  match nbits, decodeNat w with
  | _, .ok i => some i
  | _, .error _ => none

/-! ## The encoder -/

/-- Format N: the operation code and a zero operand field (R61, R66). -/
def encodeN (op : OpCode) : Cmd := op ++ 0#32

/-- Format B: the byte in `data[7:0]`, zero above it (R61, R66). -/
def encodeB (op : OpCode) (b : Byte) : Cmd := op ++ (0#24 ++ b)

/-- Format W: the word in `data` (R61). -/
def encodeW (op : OpCode) (w : Word) : Cmd := op ++ w

/-- Format L: `op[3:2] = 0b01`, `op[1:0] = sel`, the word in `data` (R61). -/
def encodeL (s : Lane) (w : Word) : Cmd := (0b01#2 ++ s) ++ w

/-- The canonical command word (R66, R68). R66 and R68 give a reserved code none, and R63 gives it no format: that
its word has a zero operand field is the model's choice (DESIGN CHOICE, notes/assumptions/17.md). -/
def encode : Instr → Cmd
  | .nop => encodeN 0x0#4
  | .push b => encodeB 0x1#4 b
  | .flush => encodeN 0x2#4
  | .unpack w => encodeW 0x3#4 w
  | .lane s w => encodeL s w
  | .fwd w => encodeW 0x8#4 w
  | .inv e => encodeW 0x9#4 e
  | .encb b => encodeB 0xA#4 b
  | .encf => encodeN 0xB#4
  | .decw e => encodeW 0xC#4 e
  | .reservedD => encodeN 0xD#4
  | .reservedE => encodeN 0xE#4
  | .reservedF => encodeN 0xF#4

/-! ## The opcode table -/

/-- A row of spec/opcode_table.json: a command word `c` belongs to it when `c &&& mask = pattern`. -/
structure TableRow where
  mnemonic : String
  pattern : Cmd
  mask : Cmd
  deriving DecidableEq, Repr

/-- The thirteen rows, in the table's order. -/
def opcodeTable : List TableRow :=
  [ ⟨"NOP", 0x000000000#36, 0xF00000000#36⟩,
    ⟨"PUSH", 0x100000000#36, 0xF00000000#36⟩,
    ⟨"FLUSH", 0x200000000#36, 0xF00000000#36⟩,
    ⟨"UNPACK", 0x300000000#36, 0xF00000000#36⟩,
    ⟨"LANE", 0x400000000#36, 0xC00000000#36⟩,
    ⟨"FWD", 0x800000000#36, 0xF00000000#36⟩,
    ⟨"INV", 0x900000000#36, 0xF00000000#36⟩,
    ⟨"ENCB", 0xA00000000#36, 0xF00000000#36⟩,
    ⟨"ENCF", 0xB00000000#36, 0xF00000000#36⟩,
    ⟨"DECW", 0xC00000000#36, 0xF00000000#36⟩,
    ⟨"RESERVED_D", 0xD00000000#36, 0xF00000000#36⟩,
    ⟨"RESERVED_E", 0xE00000000#36, 0xF00000000#36⟩,
    ⟨"RESERVED_F", 0xF00000000#36, 0xF00000000#36⟩ ]

/-- The position in `opcodeTable` of a command's row. -/
def rowIndex : Instr → Nat
  | .nop => 0
  | .push _ => 1
  | .flush => 2
  | .unpack _ => 3
  | .lane _ _ => 4
  | .fwd _ => 5
  | .inv _ => 6
  | .encb _ => 7
  | .encf => 8
  | .decw _ => 9
  | .reservedD => 10
  | .reservedE => 11
  | .reservedF => 12

/-- The row claims the command word. -/
def TableRow.claims (r : TableRow) (c : Cmd) : Bool := c &&& r.mask == r.pattern

end Sys2Proof
end

