-- ==== Sys2Proof/Machine/Operands.lean ====
section
/-! DEFINITION. The lane functions every byte operand and every word operand of `byte_packer` goes through
(40_packer.md R90, R91). The operand fields of a command word are in Decode.lean (R62). -/

namespace Sys2Proof.Machine

/-- The bit offset of a lane, `off = 8 * s` (R21). -/
def laneOffset (s : Lane) : Nat := 8 * s.toNat

/-- `lane(w, s) = (w >> (8*s))[7:0]`, the 4-to-1 byte-lane multiplexer (R90). -/
def lane (w : Word) (s : Lane) : Byte := (w >>> laneOffset s).setWidth 8

/-- `place(b, s) = zext_32(b) << (8*s)`, the lane steer (R91). -/
def place (b : Byte) (s : Lane) : Word := b.setWidth 32 <<< laneOffset s

/-- The four lanes in the order of every result, `s = 0, 1, 2, 3` (R45). -/
def allLanes : List Lane := [0#2, 1#2, 2#2, 3#2]

end Sys2Proof.Machine
end

