-- ==== Sys2Proof/Machine/State.lean ====
section
/-! DEFINITION. The state of the model. The CORE holds 34 bits, `acc` and `cnt` (10_state.md R20, R21, R28: "No other
state exists"): the type `Registers`, in which nothing else stands. `State` sets beside it the two parameters of a
run that R27 keeps out of the machine's state: what the environment will drive at the coming clock edges and the
results it has been given (R26; notes/assumptions/1.md, 3.md). The host's step takes and answers one value, so they
travel with the registers; Machine/Run.lean has the run with its command sequence as a parameter. -/

namespace Sys2Proof.Machine

/-- The input pins at one rising clock edge (20_memory.md R41; `clk` is the step itself). -/
structure InPins where
  rst : Bool
  cmdValid : Bool
  cmd : Cmd
  deriving DecidableEq, Repr

namespace InPins

/-- Nothing presented: no reset and no command. -/
def idle : InPins := ⟨false, false, 0#36⟩

/-- A command presented, no reset. -/
def present (c : Cmd) : InPins := ⟨false, true, c⟩

/-- Reset asserted, no command. -/
def reset : InPins := ⟨true, false, 0#36⟩

end InPins

/-- The result of one step (00_scope.md R10, 20_memory.md R44, R45, 60_exceptions.md R190): nothing, a word, byte
lanes, or the one fault. "No step calls more than one of them." -/
inductive Result where
  /-- No result. -/
  | silent
  /-- `EmitWord(v)` (R44). -/
  | word (v : Word)
  /-- `EmitBytes(m, d)` (R45). -/
  | lanes (m : LaneMask) (d : Word)
  /-- `IllegalCommand` by the operation code `op` (R190); the hardware stores neither, the environment knows the code
  because it sent it. -/
  | illegalCommand (op : OpCode)
  deriving DecidableEq, Repr

/-- The output pins during one step (R41). -/
structure OutPins where
  wValid : Bool
  wData : Word
  bValid : LaneMask
  bData : Word
  err : Bool
  deriving DecidableEq, Repr

/-- The CORE's whole state (R28, R29). -/
structure Registers where
  /-- The accumulator of `byte_packer`: the bytes of the group in progress, each in its lane (R20). -/
  acc : Word
  /-- The lane counter of `byte_packer`: how many bytes of the group have arrived (R21). -/
  cnt : Lane
  deriving DecidableEq, Repr

/-- The CORE and, beside it, the environment's side of a run (R27). -/
structure State extends Registers where
  /-- The environment's: what it drives at the coming clock edges, next first (R26, R27). -/
  pending : List InPins
  /-- The environment's: the result of every step taken, in step order (R27, R176). -/
  results : List Result
  deriving DecidableEq, Repr

/-- The reasons a step can stop the machine: none. "Every command presented with `cmd_valid = 1` is executed in that
step. The CORE cannot stall" (R56), and `IllegalCommand` is the `err` output of a step after which the machine goes
on (R193, R195). No one raises a fault, so this is neither safe nor unsafe (notes/assumptions/11.md). -/
inductive Fault where
  deriving DecidableEq, Repr

/-- The reasons a command has no meaning in the model. -/
inductive Refusal where
  /-- Raised by an arm of `exec` for a command that has no meaning yet; safe, since nothing is said of it. Every
  command of this model has its meaning, so no arm raises it. -/
  | notModelled (mnemonic : String)
  deriving DecidableEq, Repr

/-- The machine right after reset: `acc = 0x00000000`, `cnt = 0` (R28, R210), nothing presented by the environment and
nothing taken by it. -/
def State.reset : State where
  acc := 0#32
  cnt := 0#2
  pending := []
  results := []

end Sys2Proof.Machine
end

