-- ==== Sys2Proof/Machine/Flags.lean ====
section
/-! DEFINITION. The CORE has no flag (10_state.md R25). What stands in their place, all computed within a step and
stored nowhere: the conditions the operation rules test, the non-zero mask of the unpack side, and the output strobes
of a result. -/

namespace Sys2Proof.Machine

/-- The byte that arrives is the fourth of its group: `cnt = 3` (40_packer.md R93). -/
def groupFull (n : Lane) : Bool := n == 3#2

/-- Bytes wait in a partial group: `cnt != 0` (R94). -/
def groupPending (n : Lane) : Bool := n != 0#2

/-- Bit `s` is 1 when lane `s` of the word is not zero (R96; the `unp_nz` port of R46). -/
def nonzeroLanes (w : Word) : LaneMask :=
  BitVec.ofBool (lane w 3#2 != 0#8) ++ BitVec.ofBool (lane w 2#2 != 0#8) ++
    BitVec.ofBool (lane w 1#2 != 0#8) ++ BitVec.ofBool (lane w 0#2 != 0#8)

/-- The output pins a result drives (20_memory.md R41, R44, R45; 60_exceptions.md R193); a data output without its
strobe is 0. -/
def Result.pins : Result → OutPins
  | .silent => ⟨false, 0#32, 0#4, 0#32, false⟩
  | .word v => ⟨true, v, 0#4, 0#32, false⟩
  | .lanes m d => ⟨false, 0#32, m, d, false⟩
  | .illegalCommand _ => ⟨false, 0#32, 0#4, 0#32, true⟩

/-- The result is the fault. -/
def Result.isIllegal : Result → Bool
  | .silent => false
  | .word _ => false
  | .lanes _ _ => false
  | .illegalCommand _ => true

/-- The word a result carries, if it is a word result (R44). -/
def Result.word? : Result → Option Word
  | .silent => none
  | .word v => some v
  | .lanes _ _ => none
  | .illegalCommand _ => none

/-- The bytes a result outputs: `lane(d, s)` for each `s` with `m[s] = 1`, in the order 0, 1, 2, 3 (R45). -/
def Result.bytes : Result → List Byte
  | .silent => []
  | .word _ => []
  | .lanes m d => (allLanes.filter (fun s => m.getLsbD s.toNat)).map (lane d)
  | .illegalCommand _ => []

/-- The result with its word, if it has one, sent through `f` (43_core_codec.md R164). -/
def Result.mapWord (f : Word → Word) : Result → Result
  | .silent => .silent
  | .word v => .word (f v)
  | .lanes m d => .lanes m d
  | .illegalCommand op => .illegalCommand op

/-- The words of a list of results, in step order (R44). -/
def wordsOf (rs : List Result) : List Word := rs.filterMap Result.word?

/-- The output text of a list of results: the bytes of every byte-lane result, in step order (R45). -/
def bytesOf (rs : List Result) : List Byte := rs.flatMap Result.bytes

/-- The pins during the step just taken; idle where no step was taken (R41). -/
def State.outPins (s : State) : OutPins := (s.results.getLast?.getD .silent).pins

/-- A fault has occurred. The CORE forgets it with the step; the model's record never does, because results are only
ever added (60_exceptions.md R195). -/
def State.faultRecorded (s : State) : Bool := s.results.any Result.isIllegal

end Sys2Proof.Machine
end

