-- ==== Sys2Proof/Machine/Ops.lean ====
section
/-! DEFINITION. The named operations over the state that the meanings share. There is no memory (10_state.md R31), so
none of them reads or writes one. -/

namespace Sys2Proof.Machine

/-- `acc <- a`, `cnt <- n` (00_scope.md R10). -/
def State.setGroup (s : State) (a : Word) (n : Lane) : State := { s with acc := a, cnt := n }

/-- The registers at the start of a text: `acc <- 0x00000000`, `cnt <- 0` (R20, R28). -/
def State.clearGroup (s : State) : State := s.setGroup 0#32 0#2

/-- What the environment will drive from here on. -/
def State.setPending (s : State) (ps : List InPins) : State := { s with pending := ps }

/-- The step's result is `r`: driven on the pins for this step (R41) and added to the environment's record. -/
def State.emit (s : State) (r : Result) : State := { s with results := s.results ++ [r] }

/-- A byte enters the group; the word it completes leaves through `route` (40_packer.md R93 with no route,
43_core_codec.md R161 with `fwd`; R164: "the state change is identical"). -/
def State.takeByte (s : State) (route : Word → Word) (b : Byte) : State :=
  let a := s.acc ||| place b s.cnt
  if groupFull s.cnt then
    s.clearGroup.emit (.word (route a))
  else
    (s.setGroup a (s.cnt + 1#2)).emit .silent

/-- The text ends; the word of a partial group leaves through `route` (R94 with no route, R162 with `fwd`). -/
def State.endText (s : State) (route : Word → Word) : State :=
  if groupPending s.cnt then
    s.clearGroup.emit (.word (route s.acc))
  else
    s.clearGroup.emit .silent

/-- The lanes of `w` are output, the zero ones masked off (R96, R163). -/
def State.emitLanes (s : State) (w : Word) : State := s.emit (.lanes (nonzeroLanes w) w)

/-- Taking the one exception, the hardware's whole trap entry (60_exceptions.md R190, R193): the step's result is the
fault, `acc` and `cnt` keep their values, nothing is saved and control goes nowhere. There is no return from it
(R195): the next step is an ordinary step of this state. -/
def State.takeIllegalCommand (s : State) (op : OpCode) : State := s.emit (.illegalCommand op)

/-- A reset step (70_reset_and_hazards.md R210): the registers are cleared and all outputs are idle; the command, if
any, has no effect. -/
def State.resetStep (s : State) : State := s.clearGroup.emit .silent

/-- What the environment drives at this clock edge: the next entry, and nothing when it has none
(notes/assumptions/2.md). -/
def State.drivenPins (s : State) : InPins := s.pending.headD .idle

/-- The edge has passed: what was driven is used up. -/
def State.afterEdge (s : State) : State := s.setPending s.pending.tail

end Sys2Proof.Machine
end

