-- ==== Sys2Proof/Machine/Wires.lean ====
section
/-! DEFINITION. Moving the bits of a word to fixed places: what the two transposers are made of. All 32 positions are
always handled (41_transposer.md R128). -/

namespace Sys2Proof.Machine

/-- `e[j] <- v` (00_scope.md R10). -/
def setBit (e : Word) (j : Nat) (v : Bool) : Word :=
  if v then e ||| (1#32 <<< j) else e &&& ~~~(1#32 <<< j)

/-- `for i in src: e[dest i] <- w[i]`, from `e`. -/
def moveBits (dest : Nat → Nat) (w : Word) (src : List Nat) (e : Word) : Word :=
  src.foldl (fun acc i => setBit acc (dest i) (w.getLsbD i)) e

/-- The permutation loop of R121 and R141: from `0x00000000`, for `i` in 0..31, `e[dest i] <- w[i]`. -/
def permute (dest : Nat → Nat) (w : Word) : Word := moveBits dest w (List.range 32) 0#32

/-- The same wires given as a table: entry `i` is the destination of source bit `i` (R122, R142). -/
def permuteByTable (table : List Nat) (w : Word) : Word := permute (fun i => table.getD i 0) w

/-- Bits of a word as a matrix, row-major: entry `c` of row `r` is bit `cols * r + c` (R123). -/
def bitMatrix (rows cols : Nat) (w : Word) : List (List Bool) :=
  (List.range rows).map (fun r => (List.range cols).map (fun c => w.getLsbD (cols * r + c)))

/-- The transpose of a matrix of `cols` columns: row `c` of the result is column `c` (R123). -/
def transposeMatrix (cols : Nat) (m : List (List Bool)) : List (List Bool) :=
  (List.range cols).map (fun c => m.map (fun row => row.getD c false))

/-- A matrix read row-major as a flat 32-bit word (R123). -/
def readRowMajor (m : List (List Bool)) : Word := (BitVec.ofBoolListLE m.flatten).setWidth 32

/-- The number of 1 bits of a word (41_transposer.md R126). -/
def onesCount (w : Word) : Nat := ((List.range 32).filter w.getLsbD).length

end Sys2Proof.Machine
end

