-- ==== Sys2Proof/Machine/InverseTransposer.lean ====
section
/-! DEFINITION. `bit_inverse_transposer` (42_inverse_transposer.md): the inverse permutation and INV. The map is the
one 90_conflicts.md C1 settles on. -/

namespace Sys2Proof.Machine

/-- `q(j) = 8*(j mod 4) + (j div 4)`, the packed index of encoded bit `j` (R140, R125). -/
def invIndex (j : Nat) : Nat := 8 * (j % 4) + j / 4

/-- `inv(e)` (R140), by the loop of R141. -/
def inv (e : Word) : Word := permute invIndex e

/-- The destinations of source bits 0, 1, …, 31, as R142 lists them. -/
def invTable : List Nat :=
  [0, 8, 16, 24, 1, 9, 17, 25, 2, 10, 18, 26, 3, 11, 19, 27,
   4, 12, 20, 28, 5, 13, 21, 29, 6, 14, 22, 30, 7, 15, 23, 31]

/-- The 8x4 matrix of bits transposed back into the 4x8 matrix (R143). -/
def invByMatrix (e : Word) : Word := readRowMajor (transposeMatrix 4 (bitMatrix 8 4 e))

/-- `INV e`: permute an encoded word back into a packed word (R141). -/
def execInv (e : Word) (s : State) : Host.Outcome State Fault Refusal := .next (s.emit (.word (inv e)))

end Sys2Proof.Machine
end

