-- ==== Sys2Proof/Machine/Transposer.lean ====
section
/-! DEFINITION. `bit_transposer` (41_transposer.md): the forward permutation and FWD. -/

namespace Sys2Proof.Machine

/-- `p(i) = 4*(i mod 8) + (i div 8)`, the encoded index of packed bit `i` (R120, R125). -/
def fwdIndex (i : Nat) : Nat := 4 * (i % 8) + i / 8

/-- `fwd(w)` (R120), by the loop of R121. -/
def fwd (w : Word) : Word := permute fwdIndex w

/-- The destinations of source bits 0, 1, …, 31, as R122 lists them. -/
def fwdTable : List Nat :=
  [0, 4, 8, 12, 16, 20, 24, 28, 1, 5, 9, 13, 17, 21, 25, 29,
   2, 6, 10, 14, 18, 22, 26, 30, 3, 7, 11, 15, 19, 23, 27, 31]

/-- The forward permutation as the document pictures it: the 4x8 matrix of bits transposed into an 8x4 matrix and
read as a flat word (R123). -/
def fwdByMatrix (w : Word) : Word := readRowMajor (transposeMatrix 8 (bitMatrix 4 8 w))

/-- The permutation matrix: `P[j][i] = 1` exactly when `j = p(i)` (R127). -/
def permMatrix (j i : Nat) : Bool := j == fwdIndex i

/-- The cycles of `p` on 0..31: each index goes to the next, the last to the first (R127). -/
def fwdCycles : List (List Nat) :=
  [[0], [31], [1, 4, 16, 2, 8], [3, 12, 17, 6, 24], [5, 20, 18, 10, 9], [7, 28, 19, 14, 25],
   [11, 13, 21, 22, 26], [15, 29, 23, 30, 27]]

/-- `FWD w`: permute a packed word into an encoded word; a word is emitted also when it is 0 (R121). -/
def execFwd (w : Word) (s : State) : Host.Outcome State Fault Refusal := .next (s.emit (.word (fwd w)))

end Sys2Proof.Machine
end

