-- ==== Sys2Proof/Machine/Codec.lean ====
section
/-! DEFINITION. The commands of the CORE level (43_core_codec.md): NOP, ENCB, ENCF, DECW. The composites add wiring
only (R164): the same packer operations, with the word that leaves routed through `bit_transposer`, and the word that
enters through `bit_inverse_transposer`. -/

namespace Sys2Proof.Machine

/-- `NOP`: no result, `acc` and `cnt` keep their values (R160). -/
def execNop (s : State) : Host.Outcome State Fault Refusal := .next (s.emit .silent)

/-- `ENCB b`: take one byte; the word it completes leaves permuted (R161). -/
def execEncb (b : Byte) (s : State) : Host.Outcome State Fault Refusal := .next (s.takeByte fwd b)

/-- `ENCF`: end of text; the word of a partial group leaves permuted (R162). -/
def execEncf (s : State) : Host.Outcome State Fault Refusal := .next (s.endText fwd)

/-- `DECW e`: the bytes of the packed word `inv(e)`, zero bytes dropped (R163). -/
def execDecw (e : Word) (s : State) : Host.Outcome State Fault Refusal := .next (s.emitLanes (inv e))

end Sys2Proof.Machine
end

