-- ==== Sys2Proof/Machine/Packer.lean ====
section
/-! DEFINITION. The `byte_packer` commands (40_packer.md): PUSH, FLUSH, UNPACK, LANE. No flag is written and no
exception is raised by any of them. -/

namespace Sys2Proof.Machine

/-- `PUSH b`: take one byte into the current group; the fourth byte emits the packed word, unpermuted (R93). -/
def execPush (b : Byte) (s : State) : Host.Outcome State Fault Refusal := .next (s.takeByte id b)

/-- `FLUSH`: end of text; a partial group is emitted as it stands (R94). -/
def execFlush (s : State) : Host.Outcome State Fault Refusal := .next (s.endText id)

/-- `UNPACK w`: the bytes of `w`, zero bytes dropped (R96). -/
def execUnpack (w : Word) (s : State) : Host.Outcome State Fault Refusal := .next (s.emitLanes w)

/-- `LANE s, w`: always exactly one byte, zero or not, in lane 0 of the result (R97). -/
def execLane (sel : Lane) (w : Word) (s : State) : Host.Outcome State Fault Refusal :=
  .next (s.emit (.lanes 0b0001#4 ((lane w sel).setWidth 32)))

end Sys2Proof.Machine
end

