-- ==== Sys2Proof/Machine/Reserved.lean ====
section
/-! DEFINITION. The reserved operation codes (60_exceptions.md R190, 30_encoding.md R65): each takes the exception
`IllegalCommand`, whatever its operand field holds and whatever the state is. -/

namespace Sys2Proof.Machine

/-- Operation code `0xD` (R190, R193). -/
def execReservedD (s : State) : Host.Outcome State Fault Refusal := .next (s.takeIllegalCommand 0xD#4)

/-- Operation code `0xE` (R190, R193). -/
def execReservedE (s : State) : Host.Outcome State Fault Refusal := .next (s.takeIllegalCommand 0xE#4)

/-- Operation code `0xF` (R190, R193). -/
def execReservedF (s : State) : Host.Outcome State Fault Refusal := .next (s.takeIllegalCommand 0xF#4)

end Sys2Proof.Machine
end

