-- ==== Sys2Proof/Machine/Dispatch.lean ====
section
/-! DEFINITION. One arm per command: the meaning it calls. -/

namespace Sys2Proof.Machine

def exec (i : Instr) (s : State) : Host.Outcome State Fault Refusal :=
  match i with
  | .nop => Sys2Proof.Machine.execNop s
  | .push b => Sys2Proof.Machine.execPush b s
  | .flush => Sys2Proof.Machine.execFlush s
  | .unpack w => Sys2Proof.Machine.execUnpack w s
  | .lane sel w => Sys2Proof.Machine.execLane sel w s
  | .fwd w => Sys2Proof.Machine.execFwd w s
  | .inv e => Sys2Proof.Machine.execInv e s
  | .encb b => Sys2Proof.Machine.execEncb b s
  | .encf => Sys2Proof.Machine.execEncf s
  | .decw e => Sys2Proof.Machine.execDecw e s
  | .reservedD => Sys2Proof.Machine.execReservedD s
  | .reservedE => Sys2Proof.Machine.execReservedE s
  | .reservedF => Sys2Proof.Machine.execReservedF s

end Sys2Proof.Machine
end

