-- ==== Sys2Proof/Machine/Clock.lean ====
section
/-! DEFINITION. One rising clock edge, and presenting a command at it (20_memory.md R41). -/

namespace Sys2Proof.Machine

/-- The command a step without reset executes: `cmd` decoded if `cmd_valid = 1`, else a `NOP` whatever `cmd` holds
(R41, R160). -/
def InPins.command (p : InPins) : Instr := if p.cmdValid then decode p.cmd else .nop

/-- "every rising edge is one step: a reset step if `rst = 1`, else the execution of `cmd` if `cmd_valid = 1`, else a
`NOP`" (R41); reset wins over everything in the same step (60_exceptions.md R194). -/
def clockEdge (p : InPins) (s : State) : Host.Outcome State Fault Refusal :=
  if p.rst then .next s.resetStep else exec p.command s

/-- The environment presents the command word `w` before whatever else it has in hand; a number of 2^36 or more is no
command word and nothing is presented (notes/assumptions/6.md, 7.md). -/
def State.presentNext (s : State) (w : Nat) : State :=
  if w < 2 ^ Config.cmdBits then s.setPending (.present (BitVec.ofNat 36 w) :: s.pending) else s

end Sys2Proof.Machine
end

