-- ==== Sys2Proof/Machine/Step.lean ====
section
/-! DEFINITION. One step of the machine with its environment: one clock edge (10_state.md R26). -/

namespace Sys2Proof.Machine

/-- The environment drives its next pins and the CORE takes one clock edge on them. -/
def step (s : State) : Host.Outcome State Fault Refusal := clockEdge s.drivenPins s.afterEdge

/-- The command word `w` presented at the very next clock edge. The row's width `nbits` plays no part: there is one
length only (30_encoding.md R60). -/
def State.withFetchWord (s : State) (nbits w : Nat) : State :=
  match nbits with
  | _ => s.presentNext w

end Sys2Proof.Machine
end

