-- ==== Sys2Proof/Machine/AsmSyntax.lean ====
section
/-! DEFINITION. The statements of the assembler (30_encoding.md R68, R69), with operands as the unbounded integers a
source line can write, and the range checks the assembler makes on them. The hardware sees none of this: it sees the
command words the statements stand for. -/

namespace Sys2Proof

/-- One statement: a command of R68, `.word` for a raw command word, or a pseudo-instruction of R69. A string literal
is the list of its character codes. -/
inductive Asm where
  | nop
  | push (b : Int)
  | flush
  | unpack (w : Int)
  | lane (s w : Int)
  | fwd (w : Int)
  | inv (e : Int)
  | encb (b : Int)
  | encf
  | decw (e : Int)
  /-- `.word`: a command word as it stands, reserved or not canonical. -/
  | rawWord (c : Int)
  /-- `PACK "…"`. -/
  | packText (t : List Int)
  /-- `ENCODE "…"`. -/
  | encodeText (t : List Int)
  /-- `UNPACKS w0, w1, …`. -/
  | unpacks (ws : List Int)
  /-- `DECODE w0, w1, …`. -/
  | decodeWords (ws : List Int)
  /-- `LANE0 w` to `LANE3 w`, other spellings of `LANE 0, w` to `LANE 3, w`. -/
  | laneAt (s : Lane) (w : Int)
  deriving DecidableEq, Repr

namespace Asm

/-- A value an unsigned field of `bits` bits can hold: "The assembler rejects a `b` above 255, a `w` above
`0xFFFFFFFF`, an `s` above 3 and any negative operand" (R68). -/
def fits (bits : Nat) : Int → Bool
  | .ofNat n => decide (n < 2 ^ bits)
  | .negSucc _ => false

/-- Every operand of the statement has an encoding (R68, 93_implementation_defined.md U1, U2). -/
def operandsFit : Asm → Bool
  | .nop => true
  | .push b => fits 8 b
  | .flush => true
  | .unpack w => fits 32 w
  | .lane s w => fits 2 s && fits 32 w
  | .fwd w => fits 32 w
  | .inv e => fits 32 e
  | .encb b => fits 8 b
  | .encf => true
  | .decw e => fits 32 e
  | .rawWord c => fits 36 c
  | .packText t => t.all (fits 8)
  | .encodeText t => t.all (fits 8)
  | .unpacks ws => ws.all (fits 32)
  | .decodeWords ws => ws.all (fits 32)
  | .laneAt _ w => fits 32 w

end Asm

end Sys2Proof
end

