-- ==== Sys2Proof/WellFormed.lean ====
section
/-! DEFINITION. What a source of commands may write. A term of `Instr` always has operands of its fields' widths
(R62), so the width checks stand where unbounded operands exist, at the assembler (R68; 93_implementation_defined.md
U1, U2); what is left to check of a command is that its code is not reserved. -/

namespace Sys2Proof

/-- A command a source may issue: not one of the reserved codes ("a command source shall not issue them", R65). The
hardware executes the others too: they raise `IllegalCommand` (R190). -/
def Instr.wellFormed : Instr → Bool
  | .nop => true
  | .push _ => true
  | .flush => true
  | .unpack _ => true
  | .lane _ _ => true
  | .fwd _ => true
  | .inv _ => true
  | .encb _ => true
  | .encf => true
  | .decw _ => true
  | .reservedD => false
  | .reservedE => false
  | .reservedF => false

/-- A statement the assembler accepts (R68). -/
def Asm.wellFormed (a : Asm) : Bool := a.operandsFit

end Sys2Proof
end

