-- ==== Sys2Proof/Laws/PerInstr.lean ====
section
/-! SUPPORT. Families of statements about commands as such, one lemma per constructor of `Instr`. -/

namespace Sys2Proof.Laws

/-- The mask `0xF00000000` keeps the operation code and nothing else. -/
theorem and_opMask (op : OpCode) (w : Word) : (op ++ w : Cmd) &&& 0xF00000000#36 = op ++ 0#32 := by
  have h : (0xF00000000#36 : Cmd) = 0xF#4 ++ 0#32 := by decide
  rw [h, BitVec.and_append, BitVec.and_zero]
  congr 1
  revert op
  decide

/-- The mask `0xC00000000` keeps `op[3:2]` and nothing else. -/
theorem and_laneMask (op : OpCode) (w : Word) :
    (op ++ w : Cmd) &&& 0xC00000000#36 = (op &&& 0xC#4) ++ 0#32 := by
  have h : (0xC00000000#36 : Cmd) = 0xC#4 ++ 0#32 := by decide
  rw [h, BitVec.and_append, BitVec.and_zero]

/-- The rows that claim a command word, by its operation code alone. -/
theorem claims_eq (op : OpCode) (w w' : Word) :
    opcodeTable.map (fun r => r.claims (op ++ w)) = opcodeTable.map (fun r => r.claims (op ++ w')) := by
  simp [opcodeTable, TableRow.claims, and_opMask, and_laneMask]

namespace InItsTableRow

/-- Of the thirteen rows of the opcode table, a command's own row claims its canonical word and no other row does. -/
def Statement (i : Instr) : Prop :=
  opcodeTable.map (fun r => r.claims (encode i)) = (List.range 13).map (fun k => k == rowIndex i)

theorem nop : Statement .nop := by unfold Statement; decide

theorem push (b : Byte) : Statement (.push b) :=
  (claims_eq 0x1#4 (0#24 ++ b) 0#32).trans (by simp only [rowIndex]; decide)

theorem flush : Statement .flush := by unfold Statement; decide

theorem unpack (w : Word) : Statement (.unpack w) :=
  (claims_eq 0x3#4 w 0#32).trans (by simp only [rowIndex]; decide)

theorem lane (s : Lane) (w : Word) : Statement (.lane s w) :=
  (claims_eq (0b01#2 ++ s) w 0#32).trans (by simp only [rowIndex]; revert s; decide)

theorem fwd (w : Word) : Statement (.fwd w) :=
  (claims_eq 0x8#4 w 0#32).trans (by simp only [rowIndex]; decide)

theorem inv (e : Word) : Statement (.inv e) :=
  (claims_eq 0x9#4 e 0#32).trans (by simp only [rowIndex]; decide)

theorem encb (b : Byte) : Statement (.encb b) :=
  (claims_eq 0xA#4 (0#24 ++ b) 0#32).trans (by simp only [rowIndex]; decide)

theorem encf : Statement .encf := by unfold Statement; decide

theorem decw (e : Word) : Statement (.decw e) :=
  (claims_eq 0xC#4 e 0#32).trans (by simp only [rowIndex]; decide)

theorem reservedD : Statement .reservedD := by unfold Statement; decide

theorem reservedE : Statement .reservedE := by unfold Statement; decide

theorem reservedF : Statement .reservedF := by unfold Statement; decide

end InItsTableRow

end Sys2Proof.Laws
end

