-- ==== Sys2Proof/Machine/Functions.lean ====
section
/-! DEFINITION. The document's functions on whole texts and word sequences, in closed form, and the command sequences
that compute them on the CORE (40_packer.md R95, R98; 43_core_codec.md R167, R168). The machine does not call the
functions: they are what its runs are compared with. -/

namespace Sys2Proof.Machine

/-- `ceil(a/b)`, the least integer not below `a/b` (00_scope.md R10). -/
def ceilDiv (a b : Nat) : Nat := (a + b - 1) / b

/-- `pack(t)[k]`: the OR over `b` in 0..3 with `4k+b < L` of `place(t[4k+b], b)` (R95). -/
def packedWord (t : List Byte) (k : Nat) : Word :=
  ((allLanes.filter (fun b => 4 * k + b.toNat < t.length)).map
    (fun b => place (t.getD (4 * k + b.toNat) 0#8) b)).foldl (· ||| ·) 0#32

/-- `pack(t)`, `ceil(L/4)` words (R95). -/
def pack (t : List Byte) : List Word := (List.range (ceilDiv t.length 4)).map (packedWord t)

/-- `unpack(ws)`: the lanes of every word in order, every zero byte removed (R98). -/
def unpack (ws : List Word) : List Byte :=
  (ws.flatMap (fun w => allLanes.map (lane w))).filter (fun b => b != 0#8)

/-- `encode(t)[k] = fwd(pack(t)[k])` (R167). -/
def encodeText (t : List Byte) : List Word := (pack t).map fwd

/-- `decode(es) = unpack([inv(e0), …, inv(e(m-1))])` (R168). -/
def decodeWords (es : List Word) : List Byte := unpack (es.map inv)

/-! ## The command sequences (R69, R95, R98, R167, R168) -/

/-- `PUSH t0; …; PUSH t(L-1); FLUSH`. -/
def packCommands (t : List Byte) : List Instr := t.map .push ++ [.flush]

/-- `ENCB t0; …; ENCB t(L-1); ENCF`. -/
def encodeCommands (t : List Byte) : List Instr := t.map .encb ++ [.encf]

/-- `UNPACK w0; …; UNPACK w(m-1)`. -/
def unpackCommands (ws : List Word) : List Instr := ws.map .unpack

/-- `DECW e0; …; DECW e(m-1)`. -/
def decodeCommands (es : List Word) : List Instr := es.map .decw

/-- The commands presented one a step, each as its canonical word (R42, R43, R68). -/
def presentAll (is : List Instr) : List InPins := is.map (fun i => .present (encode i))

end Sys2Proof.Machine
end

