-- ==== Sys2Proof/Machine/Assembler.lean ====
section
/-! DEFINITION. The assembler of 30_encoding.md R68 and R69: from a source line to the command words it stands for.
It is a tool of the environment; no step of the machine calls it. What R68 leaves open of the line's form is in
notes/assumptions/14.md. -/

namespace Sys2Proof.Asm

open Sys2Proof.Machine

/-- Why the assembler rejects. -/
inductive Error where
  /-- An operand that no field holds: too wide, or negative (R68; 93_implementation_defined.md U1, U2). -/
  | operandRange
  /-- A line that is not of the form of R68 and R69. -/
  | lineForm
  deriving DecidableEq, Repr

/-! ## Statements to commands -/

/-- An operand for a field of `bits` bits; refused where the field cannot hold it, never truncated (R68, D23). -/
def field (bits : Nat) : Int → Except Error (BitVec bits)
  | .ofNat n => if n < 2 ^ bits then .ok (BitVec.ofNat bits n) else .error .operandRange
  | .negSucc _ => .error .operandRange

/-- The operands of a pseudo-instruction, all or none. -/
def fields (bits : Nat) : List Int → Except Error (List (BitVec bits))
  | [] => .ok []
  | v :: vs =>
    match field bits v, fields bits vs with
    | .ok b, .ok bs => .ok (b :: bs)
    | .error e, _ => .error e
    | .ok _, .error e => .error e

/-- The commands a statement stands for: itself (R68) or its expansion (R69). `.word` stands for whatever the decoder
reads from the raw word. -/
def expand : Asm → Except Error (List Instr)
  | .nop => .ok [.nop]
  | .push b => (field 8 b).map (fun b => [.push b])
  | .flush => .ok [.flush]
  | .unpack w => (field 32 w).map (fun w => [.unpack w])
  | .lane s w =>
    match field 2 s, field 32 w with
    | .ok s, .ok w => .ok [.lane s w]
    | .error e, _ => .error e
    | .ok _, .error e => .error e
  | .fwd w => (field 32 w).map (fun w => [.fwd w])
  | .inv e => (field 32 e).map (fun e => [.inv e])
  | .encb b => (field 8 b).map (fun b => [.encb b])
  | .encf => .ok [.encf]
  | .decw e => (field 32 e).map (fun e => [.decw e])
  | .rawWord c => (field 36 c).map (fun c => [decode c])
  | .packText t => (fields 8 t).map packCommands
  | .encodeText t => (fields 8 t).map encodeCommands
  | .unpacks ws => (fields 32 ws).map unpackCommands
  | .decodeWords ws => (fields 32 ws).map decodeCommands
  | .laneAt s w => (field 32 w).map (fun w => [.lane s w])

/-- The command words of a statement: canonical, but for `.word`, which writes its word as it stands (R66, R68). -/
def assemble : Asm → Except Error (List Cmd)
  | .rawWord c => (field 36 c).map (fun c => [c])
  | a => (expand a).map (fun is => is.map encode)

/-! ## Lines to tokens -/

/-- The pieces of a line. -/
inductive Token where
  /-- A mnemonic or a number, as written. -/
  | atom (cs : List Char)
  | comma
  /-- A character in single quotes, as its code. -/
  | chr (n : Nat)
  /-- A string literal, as its character codes. -/
  | str (ns : List Nat)
  deriving DecidableEq, Repr

/-- Where in a line the tokenizer stands; the pieces read so far are in reverse. -/
inductive LexMode where
  | base
  | atom (acc : List Char)
  | chr
  | chrEnd (n : Nat)
  | str (acc : List Nat)
  | escape (acc : List Nat)
  | hex1 (acc : List Nat)
  | hex2 (acc : List Nat) (hi : Nat)
  | comment
  | bad
  deriving DecidableEq, Repr

/-- The value of a hexadecimal digit of either case. -/
def hexDigit (c : Char) : Option Nat :=
  if 48 ≤ c.toNat ∧ c.toNat ≤ 57 then some (c.toNat - 48)
  else if 65 ≤ c.toNat ∧ c.toNat ≤ 70 then some (c.toNat - 55)
  else if 97 ≤ c.toNat ∧ c.toNat ≤ 102 then some (c.toNat - 87)
  else none

/-- The value of a decimal digit. -/
def decDigit (c : Char) : Option Nat :=
  if 48 ≤ c.toNat ∧ c.toNat ≤ 57 then some (c.toNat - 48) else none

/-- Characters of a mnemonic or a number: letters, digits, `.`, `-`, `_`. -/
def isAtomChar (c : Char) : Bool :=
  (decDigit c).isSome || (65 ≤ c.toNat && c.toNat ≤ 90) || (97 ≤ c.toNat && c.toNat ≤ 122) ||
    c == '.' || c == '-' || c == '_'

/-- A character with a code of its own in the 7-bit table (00_scope.md R12; 93_implementation_defined.md GK1). -/
def isAscii (c : Char) : Bool := c.toNat < 128

/-- One character outside every literal and atom; `;` starts a comment (R68). -/
def lexBase (c : Char) : List Token × LexMode :=
  if c == ' ' || c == '\t' || c == '\r' then ([], .base)
  else if c == ',' then ([.comma], .base)
  else if c == ';' then ([], .comment)
  else if c == '\'' then ([], .chr)
  else if c == '"' then ([], .str [])
  else if isAtomChar c then ([], .atom [c])
  else ([], .bad)

/-- One character in any mode. The escapes of a string literal are `\0` and `\xHH` (R69). A literal may follow a
mnemonic or a number with no blank between, a point R68 leaves open (DESIGN CHOICE, notes/assumptions/14.md). -/
def lexStep (m : LexMode) (c : Char) : List Token × LexMode :=
  match m with
  | .base => lexBase c
  | .atom acc =>
    if isAtomChar c then ([], .atom (c :: acc))
    else (.atom acc.reverse :: (lexBase c).1, (lexBase c).2)
  | .chr => if isAscii c then ([], .chrEnd c.toNat) else ([], .bad)
  | .chrEnd n => if c == '\'' then ([.chr n], .base) else ([], .bad)
  | .str acc =>
    if c == '"' then ([.str acc.reverse], .base)
    else if c == '\\' then ([], .escape acc)
    else if isAscii c then ([], .str (c.toNat :: acc))
    else ([], .bad)
  | .escape acc =>
    if c == '0' then ([], .str (0 :: acc))
    else if c == 'x' then ([], .hex1 acc)
    else ([], .bad)
  | .hex1 acc =>
    match hexDigit c with
    | some d => ([], .hex2 acc d)
    | none => ([], .bad)
  | .hex2 acc hi =>
    match hexDigit c with
    | some d => ([], .str ((16 * hi + d) :: acc))
    | none => ([], .bad)
  | .comment => ([], .comment)
  | .bad => ([], .bad)

/-- The tokens of a line; none where a literal is left open or a character has no place. -/
def lex : LexMode → List Char → Option (List Token)
  | .base, [] => some []
  | .comment, [] => some []
  | .atom acc, [] => some [.atom acc.reverse]
  | .chr, [] => none
  | .chrEnd _, [] => none
  | .str _, [] => none
  | .escape _, [] => none
  | .hex1 _, [] => none
  | .hex2 _ _, [] => none
  | .bad, [] => none
  | m, c :: cs => (lex (lexStep m c).2 cs).map (fun ts => (lexStep m c).1 ++ ts)

/-! ## Tokens to a statement -/

/-- A number from its digits, at least one; `value` gives a digit's value. -/
def digits (value : Char → Option Nat) (base : Nat) (cs : List Char) : Option Nat :=
  if cs.isEmpty then none
  else cs.foldl (fun n c => match n, value c with
    | some n, some d => some (base * n + d)
    | _, _ => none) (some 0)

/-- An unsigned numeral: decimal, or hexadecimal with `0x` and underscores for reading (R68, R12). -/
def numeral : List Char → Option Nat
  | '0' :: 'x' :: cs => digits hexDigit 16 (cs.filter (fun c => c != '_'))
  | cs => digits decDigit 10 cs

/-- A numeric operand; a minus sign makes it one the range check rejects. -/
def number : List Char → Option Int
  | '-' :: cs => (numeral cs).map (fun n => -(n : Int))
  | cs => (numeral cs).map (fun n => (n : Int))

/-- An operand that is a word or a lane number. -/
def wordOperand : Token → Option Int
  | .atom cs => number cs
  | .comma => none
  | .chr _ => none
  | .str _ => none

/-- An operand that is a byte: a number, or "a character in single quotes for a byte" (R68). -/
def byteOperand : Token → Option Int
  | .atom cs => number cs
  | .comma => none
  | .chr n => some (n : Int)
  | .str _ => none

/-- The word operands of a list separated by commas. -/
def wordList : List Token → Option (List Int)
  | [] => some []
  | [t] => (wordOperand t).map (fun v => [v])
  | t :: .comma :: u :: ts =>
    match wordOperand t, wordList (u :: ts) with
    | some v, some vs => some (v :: vs)
    | _, _ => none
  | _ => none

/-- The mnemonics, in capitals (R68, R69). -/
inductive Mnemonic where
  | NOP | PUSH | FLUSH | UNPACK | LANE | FWD | INV | ENCB | ENCF | DECW | word
  | PACK | ENCODE | UNPACKS | DECODE | LANE0 | LANE1 | LANE2 | LANE3
  deriving DecidableEq, Repr

/-- How each is written. -/
def mnemonicTable : List (List Char × Mnemonic) :=
  [ (['N', 'O', 'P'], .NOP), (['P', 'U', 'S', 'H'], .PUSH), (['F', 'L', 'U', 'S', 'H'], .FLUSH),
    (['U', 'N', 'P', 'A', 'C', 'K'], .UNPACK), (['L', 'A', 'N', 'E'], .LANE), (['F', 'W', 'D'], .FWD),
    (['I', 'N', 'V'], .INV), (['E', 'N', 'C', 'B'], .ENCB), (['E', 'N', 'C', 'F'], .ENCF),
    (['D', 'E', 'C', 'W'], .DECW), (['.', 'w', 'o', 'r', 'd'], .word), (['P', 'A', 'C', 'K'], .PACK) ] ++
  [ (['E', 'N', 'C', 'O', 'D', 'E'], .ENCODE), (['U', 'N', 'P', 'A', 'C', 'K', 'S'], .UNPACKS),
    (['D', 'E', 'C', 'O', 'D', 'E'], .DECODE), (['L', 'A', 'N', 'E', '0'], .LANE0),
    (['L', 'A', 'N', 'E', '1'], .LANE1), (['L', 'A', 'N', 'E', '2'], .LANE2),
    (['L', 'A', 'N', 'E', '3'], .LANE3) ]

/-- The mnemonic a token writes. -/
def mnemonic : Token → Option Mnemonic
  | .atom cs => mnemonicTable.lookup cs
  | .comma => none
  | .chr _ => none
  | .str _ => none

/-- The statement of a mnemonic and what follows it on the line. -/
def statement (m : Mnemonic) (ts : List Token) : Option Asm :=
  match m, ts with
  | .NOP, [] => some .nop
  | .PUSH, [t] => (byteOperand t).map .push
  | .FLUSH, [] => some .flush
  | .UNPACK, [t] => (wordOperand t).map .unpack
  | .LANE, [t, .comma, u] =>
    match wordOperand t, wordOperand u with
    | some s, some w => some (.lane s w)
    | _, _ => none
  | .FWD, [t] => (wordOperand t).map .fwd
  | .INV, [t] => (wordOperand t).map .inv
  | .ENCB, [t] => (byteOperand t).map .encb
  | .ENCF, [] => some .encf
  | .DECW, [t] => (wordOperand t).map .decw
  | .word, [t] => (wordOperand t).map .rawWord
  | .PACK, [.str ns] => some (.packText (ns.map (fun n => (n : Int))))
  | .ENCODE, [.str ns] => some (.encodeText (ns.map (fun n => (n : Int))))
  | .UNPACKS, ts => (wordList ts).map .unpacks
  | .DECODE, ts => (wordList ts).map .decodeWords
  | .LANE0, [t] => (wordOperand t).map (.laneAt 0#2)
  | .LANE1, [t] => (wordOperand t).map (.laneAt 1#2)
  | .LANE2, [t] => (wordOperand t).map (.laneAt 2#2)
  | .LANE3, [t] => (wordOperand t).map (.laneAt 3#2)
  | _, _ => none

/-- The command words of a line; a blank or comment line has none (R68). -/
def assembleLine (cs : List Char) : Except Error (List Cmd) :=
  match lex .base cs with
  | none => .error .lineForm
  | some [] => .ok []
  | some (t :: ts) =>
    match (mnemonic t).bind (fun m => statement m ts) with
    | none => .error .lineForm
    | some a => assemble a

/-- The command words of a source, one command per line; the first line that is rejected rejects it (R68). -/
def assembleLines : List (List Char) → Except Error (List Cmd)
  | [] => .ok []
  | l :: ls =>
    match assembleLine l, assembleLines ls with
    | .ok ws, .ok rest => .ok (ws ++ rest)
    | .error e, _ => .error e
    | .ok _, .error e => .error e

end Sys2Proof.Asm
end

