-- ==== Sys2Proof/Machine/Blocks.lean ====
section
/-! DEFINITION. The CORE as hardware: the three sub-blocks with the ports of 20_memory.md R46 and the structure of
40_packer.md R102, the command decoder that drives them, and the output multiplexers of R41. The step of the machine
does not use it; that the two agree is a statement. Where R46 and R102 leave a net open in a step that does not use
it, notes/assumptions/12.md says what drives it. -/

namespace Sys2Proof.Machine.Blocks

/-! ## byte_packer -/

/-- The input ports of `byte_packer` but for `clk` and `rst` (R46). -/
structure PackerIn where
  push : Bool
  flush : Bool
  byteIn : Byte
  unpWord : Word
  unpSel : Lane
  deriving DecidableEq, Repr

/-- The output ports of `byte_packer` (R46). -/
structure PackerOut where
  wordValid : Bool
  wordOut : Word
  unpByte : Byte
  unpNz : LaneMask
  deriving DecidableEq, Repr

/-- The 2-to-4 decoder on `cnt` (R102). -/
def laneEnables (n : Lane) : LaneMask :=
  BitVec.ofBool (n == 3#2) ++ BitVec.ofBool (n == 2#2) ++ BitVec.ofBool (n == 1#2) ++ BitVec.ofBool (n == 0#2)

/-- "the input byte is ORed into the enabled lane" (R102): the four lanes of the merged word. -/
def mergeLane (acc : Word) (enable : Bool) (start : Nat) (b : Byte) : Byte :=
  acc.extractLsb' start 8 ||| (if enable then b else 0#8)

/-- The word after the input byte, with no lane enabled unless `push` (R102). -/
def merged (acc : Word) (n : Lane) (i : PackerIn) : Word :=
  let en := if i.push then laneEnables n else 0#4
  mergeLane acc (en.getLsbD 3) 24 i.byteIn ++ mergeLane acc (en.getLsbD 2) 16 i.byteIn ++
    mergeLane acc (en.getLsbD 1) 8 i.byteIn ++ mergeLane acc (en.getLsbD 0) 0 i.byteIn

/-- The eight 4-to-1 multiplexers sharing one 2-bit select (R90, R102). -/
def laneMux (w : Word) (sel : Lane) : Byte :=
  if sel.getLsbD 1 then (if sel.getLsbD 0 then w.extractLsb' 24 8 else w.extractLsb' 16 8)
  else (if sel.getLsbD 0 then w.extractLsb' 8 8 else w.extractLsb' 0 8)

/-- An 8-input OR gate on one lane (R102). -/
def orGate (w : Word) (start : Nat) : Bool := (List.range 8).any (fun k => w.getLsbD (start + k))

/-- The combinational outputs of `byte_packer`: "a comparator `cnt = 3` drives the word-valid strobe" of a push, a
flush strobes when bytes wait (R102, R93, R94). -/
def packerOut (acc : Word) (n : Lane) (i : PackerIn) : PackerOut where
  wordValid := (i.push && n == 3#2) || (i.flush && n != 0#2)
  wordOut := merged acc n i
  unpByte := laneMux i.unpWord i.unpSel
  unpNz := BitVec.ofBool (orGate i.unpWord 24) ++ BitVec.ofBool (orGate i.unpWord 16) ++
    BitVec.ofBool (orGate i.unpWord 8) ++ BitVec.ofBool (orGate i.unpWord 0)

/-- The two registers at the next edge: cleared by `rst`, a completed group or a flush, else loaded by a push, else
held (R102, R210). -/
def packerNext (rst : Bool) (acc : Word) (n : Lane) (i : PackerIn) : Word × Lane :=
  if rst || i.flush || (i.push && n == 3#2) then (0#32, 0#2)
  else if i.push then (merged acc n i, n + 1#2)
  else (acc, n)

/-! ## The two transposers: 32 wires each, as R122 and R142 list them -/

/-- `t_out` of `bit_transposer` (R46, R122). -/
def transposerOut (tIn : Word) : Word := permuteByTable fwdTable tIn

/-- `it_out` of `bit_inverse_transposer` (R46, R142). -/
def inverseTransposerOut (itIn : Word) : Word := permuteByTable invTable itIn

/-! ## The command decoder and the wiring (R41, R46, R63) -/

/-- A command is executed at this edge: no reset, and `cmd_valid` (R41). -/
def running (p : InPins) : Bool := !p.rst && p.cmdValid

/-- The operation code as a number, for the decoder's comparisons. -/
def opNumber (p : InPins) : Nat := (opField p.cmd).toNat

/-- The operation code is one of the list and the command is executed. -/
def runs (p : InPins) (ops : List Nat) : Bool := running p && ops.contains (opNumber p)

/-- The ports of `byte_packer` as the decoder drives them: the word to unpack comes through
`bit_inverse_transposer` for `DECW` (R3, R163). -/
def packerIn (p : InPins) : PackerIn where
  push := runs p [0x1, 0xA]
  flush := runs p [0x2, 0xB]
  byteIn := byteField p.cmd
  unpWord := if opNumber p = 0xC then inverseTransposerOut (wordField p.cmd) else wordField p.cmd
  unpSel := selField p.cmd

/-- The input of `bit_transposer`: the operand for `FWD`, else the packed word on its way out (R3, R121, R161). -/
def transposerIn (p : InPins) (k : PackerOut) : Word := if opNumber p = 0x8 then wordField p.cmd else k.wordOut

/-- The source of the word result. -/
def wordSource (p : InPins) (k : PackerOut) : Word :=
  if opNumber p = 0x9 then inverseTransposerOut (wordField p.cmd)
  else if opNumber p = 0x1 ∨ opNumber p = 0x2 then k.wordOut
  else transposerOut (transposerIn p k)

/-- `w_valid`. -/
def wordValid (p : InPins) (k : PackerOut) : Bool := k.wordValid || runs p [0x8, 0x9]

/-- The output pins of the CORE, functions of the registers and the input pins (R41). -/
def coreOut (p : InPins) (acc : Word) (n : Lane) : OutPins :=
  let i := packerIn p
  let k := packerOut acc n i
  { wValid := wordValid p k
    wData := if wordValid p k then wordSource p k else 0#32
    bValid := if runs p [0x3, 0xC] then k.unpNz else if runs p [0x4, 0x5, 0x6, 0x7] then 0b0001#4 else 0#4
    bData := if runs p [0x3, 0xC] then i.unpWord
      else if runs p [0x4, 0x5, 0x6, 0x7] then k.unpByte.setWidth 32 else 0#32
    err := runs p [0xD, 0xE, 0xF] }

/-- The registers of the CORE at the next edge: those of `byte_packer`, the only ones (R29). -/
def coreNext (p : InPins) (acc : Word) (n : Lane) : Word × Lane := packerNext p.rst acc n (packerIn p)

end Sys2Proof.Machine.Blocks
end

