-- ==== Sys2Proof/Machine/Run.lean ====
section
/-! DEFINITION. A run of the CORE with its command sequence as a parameter, outside the machine's state (10_state.md
R24, R27): from registers and a list of driven pins, one clock edge an entry. -/

namespace Sys2Proof.Machine

/-- The run of the pins `ps` from the registers `g`, with no result recorded before it. -/
def Registers.run (g : Registers) (ps : List InPins) : Host.Outcome State Fault Refusal :=
  core.run ps.length { toRegisters := g, pending := ps, results := [] }

end Sys2Proof.Machine
end

