-- ==== Sys2Proof/Safety.lean ====
section
/-! DEFINITION. What claims count as a good state and a good end of a run. -/

namespace Sys2Proof

/-- The commands that neither read nor write `acc` and `cnt` (10_state.md R30): the pure ones of 20_memory.md R51 and
R53 c, and the reserved codes. -/
def Instr.leavesGroup : Instr → Bool
  | .nop => true
  | .push _ => false
  | .flush => false
  | .unpack _ => true
  | .lane _ _ => true
  | .fwd _ => true
  | .inv _ => true
  | .encb _ => false
  | .encf => false
  | .decw _ => true
  | .reservedD => true
  | .reservedE => true
  | .reservedF => true

end Sys2Proof

namespace Sys2Proof.Machine

/-- The state invariant `acc[31 : 8*cnt] = 0`: the lanes at and above `cnt` are zero (10_state.md R22). -/
abbrev State.Inv (s : State) : Prop := s.acc >>> laneOffset s.cnt = 0#32

/-- No byte waits in a partial group and the registers are at their start values: the state in which a text begins
(R49, 40_packer.md R95). -/
abbrev State.AtTextStart (s : State) : Prop := s.acc = 0#32 ∧ s.cnt = 0#2

/-- The run so far ends clean: nothing waits and no step raised `IllegalCommand` (43_core_codec.md R176). -/
abbrev State.EndsClean (s : State) : Prop := s.cnt = 0#2 ∧ s.faultRecorded = false

end Sys2Proof.Machine
end

