-- ==== Sys2Proof/Certificates/Slice0/Obligations.lean ====
section
/-! DEFINITION. The statements for the provers. Each docstring names the rules of spec/ it formalises. Where a next
state is written with `s with`, every field not named is unchanged: that is the frame. -/

open Sys2Proof Sys2Proof.Machine

/-! ## Reset and the invariant -/

/-- R28: the reset state of the two registers, the one a reset step leads to from any state. -/
def Obligations.ResetClearsBothRegisters : Prop :=
  State.reset.acc = 0x00000000#32 ∧ State.reset.cnt = 0#2 ∧
  ∀ (s : State) (p : InPins), p.rst = true →
    ∃ t : State, clockEdge p s = .next t ∧ t.acc = State.reset.acc ∧ t.cnt = State.reset.cnt

/-- R22: the reset state meets the invariant. -/
def Obligations.ResetStateMeetsLaneInvariant : Prop := State.reset.Inv

/-- R22: every step, from any state that meets the invariant, leads to one that meets it. -/
def Obligations.EveryStepKeepsLaneInvariant : Prop :=
  ∀ s s' : State, s.Inv → step s = .next s' → s'.Inv

/-- R22, its consequences: bits 31:24 of `acc` are 0, `cnt = 0` implies `acc = 0`, and the OR of PUSH writes lane
`cnt` and leaves the other lanes alone. -/
def Obligations.InvariantMakesOrALaneWrite : Prop :=
  ∀ (s : State) (b : Byte), s.Inv →
    s.acc.extractLsb' 24 8 = 0#8 ∧ (s.cnt = 0#2 → s.acc = 0#32) ∧
    lane (s.acc ||| place b s.cnt) s.cnt = b ∧
    ∀ k : Lane, k ≠ s.cnt → lane (s.acc ||| place b s.cnt) k = lane s.acc k

/-- R210: a reset step, whatever command is on the port and whatever the state is. -/
def Obligations.ResetStepClearsAndIdles : Prop :=
  ∀ (s : State) (p : InPins) (ps : List InPins), s.pending = p :: ps → p.rst = true →
    ∃ t : State, step s = .next t ∧ t.acc = 0x00000000#32 ∧ t.cnt = 0#2 ∧ t.pending = ps ∧
      t.results = s.results ++ [.silent] ∧ t.outPins = ⟨false, 0x00000000#32, 0b0000#4, 0x00000000#32, false⟩

/-! ## The step -/

/-- R41, R64: what one clock edge does: reset, else the command, else a NOP; with nothing in hand the environment
presents nothing (the model's choice, notes/assumptions/2.md), and a step is the execution of the command presented
next, from the state with the edge used up. -/
def Obligations.StepResetsRunsOrIdles : Prop :=
  (∀ (s : State) (p : InPins) (ps : List InPins), s.pending = p :: ps →
    step s = if p.rst then .next (s.setPending ps).resetStep
      else if p.cmdValid then exec (decode p.cmd) (s.setPending ps)
      else exec .nop (s.setPending ps)) ∧
  (∀ s : State, s.pending = [] → step s = exec .nop s) ∧
  (∀ (s : State) (nbits w : Nat), w < 2 ^ 36 →
    step (s.withFetchWord nbits w) = exec (decode (BitVec.ofNat 36 w)) s) ∧
  (∀ (s : State) (nbits : Nat) (i : Instr), step (s.withFetchWord nbits (encode i).toNat) = exec i s)

/-- R26, R56: every step answers a next state and has exactly one result, added after the earlier ones; the pins
driven at it, if any are in hand, are used up. That a step is taken also with none in hand is the model's choice
(notes/assumptions/2.md). -/
def Obligations.EveryStepCompletesWithOneResult : Prop :=
  ∀ s : State, ∃ (t : State) (r : Result), step s = .next t ∧ t.results = s.results ++ [r] ∧
    t.pending = s.pending.tail ∧ t.outPins = r.pins

/-- R25, R195: nothing but `acc`, `cnt` and the pins driven at this edge decides what a step does: no hidden state, no
memory of an earlier result or fault, and no look at what is driven later. -/
def Obligations.StepDependsOnRegistersAndPinsOnly : Prop :=
  ∀ s u : State, s.acc = u.acc → s.cnt = u.cnt → s.drivenPins = u.drivenPins →
    ∃ (t v : State) (r : Result), step s = .next t ∧ step u = .next v ∧
      t.acc = v.acc ∧ t.cnt = v.cnt ∧ t.pending = s.pending.tail ∧ v.pending = u.pending.tail ∧
      t.results = s.results ++ [r] ∧ v.results = u.results ++ [r]

/-- R41, R44, R45, R10: the output pins of every step: a data output without its strobe is 0, and at most one of the
word strobe, the byte strobes and `err` is driven. -/
def Obligations.OutputPinsAreExclusiveAndIdleZero : Prop :=
  ∀ s t : State, step s = .next t →
    (t.outPins.wValid = false → t.outPins.wData = 0#32) ∧
    (t.outPins.bValid = 0#4 → t.outPins.bData = 0#32) ∧
    (t.outPins.wValid = true → t.outPins.bValid = 0#4 ∧ t.outPins.err = false) ∧
    (t.outPins.err = true → t.outPins.wValid = false ∧ t.outPins.bValid = 0#4)

/-- R44, R45: which commands can emit a word, and which output byte lanes. -/
def Obligations.WhichCommandsEmitWordsOrBytes : Prop :=
  ∀ (i : Instr) (s t : State), exec i s = .next t →
    (t.outPins.wValid = true → (∃ b, i = .push b) ∨ i = .flush ∨ (∃ w, i = .fwd w) ∨ (∃ e, i = .inv e) ∨
      (∃ b, i = .encb b) ∨ i = .encf) ∧
    (t.outPins.bValid ≠ 0#4 → (∃ w, i = .unpack w) ∨ (∃ k w, i = .lane k w) ∨ (∃ e, i = .decw e))

/-- R30, R51: a command outside PUSH, FLUSH, ENCB, ENCF has one result that depends on the command only, and leaves
both registers alone. -/
def Obligations.OtherCommandsNeitherReadNorWriteGroup : Prop :=
  ∀ i : Instr, i.leavesGroup = true →
    ∃ r : Result, ∀ s : State, exec i s = .next { s with results := s.results ++ [r] }

/-! ## byte_packer -/

/-- R90, R91: the lane functions. -/
def Obligations.LaneAndPlaceAreInverse : Prop :=
  (∀ (w : Word) (s : Lane), lane w s = (w >>> (8 * s.toNat)).extractLsb' 0 8 ∧
    lane w s = w.extractLsb' (8 * s.toNat) 8) ∧
  (∀ (b : Byte) (s : Lane), (place b s).toNat = b.toNat * 2 ^ (8 * s.toNat) ∧ lane (place b s) s = b ∧
    ∀ t : Lane, t ≠ s → lane (place b s) t = 0#8)

/-- R93: PUSH, on both of its branches; its encoding with the ignored bits `x`, and its canonical word. -/
def Obligations.PushTakesOneByte : Prop :=
  (∀ (x : BitVec 24) (b : Byte), decode (0x1#4 ++ (x ++ b)) = .push b) ∧
  (∀ b : Byte, encode (.push b) = 0x1#4 ++ (0x000000#24 ++ b)) ∧
  ∀ (s : State) (b : Byte),
    (s.cnt ≠ 3#2 → exec (.push b) s = .next
      { s with acc := s.acc ||| place b s.cnt, cnt := s.cnt + 1#2, results := s.results ++ [.silent] }) ∧
    (s.cnt = 3#2 → exec (.push b) s = .next
      { s with acc := 0x00000000#32, cnt := 0#2, results := s.results ++ [.word (s.acc ||| place b s.cnt)] })

/-- R94: FLUSH, with bytes waiting and with none; its encoding with the ignored bits `x`, and its canonical word. -/
def Obligations.FlushEndsText : Prop :=
  (∀ x : BitVec 32, decode (0x2#4 ++ x) = .flush) ∧ encode .flush = 0x200000000#36 ∧
  ∀ s : State,
    (s.cnt ≠ 0#2 → exec .flush s = .next
      { s with acc := 0x00000000#32, cnt := 0#2, results := s.results ++ [.word s.acc] }) ∧
    (s.cnt = 0#2 → exec .flush s = .next
      { s with acc := 0x00000000#32, cnt := 0#2, results := s.results ++ [.silent] })

/-- R96: UNPACK outputs the word with bit `k` of the mask saying that lane `k` is not zero: the bytes of the word in
lane order, the zero ones dropped wherever they stand. -/
def Obligations.UnpackOutputsNonzeroLanes : Prop :=
  (∀ w : Word, decode (0x3#4 ++ w) = .unpack w) ∧ (∀ w : Word, encode (.unpack w) = 0x3#4 ++ w) ∧
  ∀ (s : State) (w : Word), ∃ m : LaneMask,
    (∀ k : Lane, m.getLsbD k.toNat = (lane w k != 0x00#8)) ∧
    exec (.unpack w) s = .next { s with results := s.results ++ [.lanes m w] } ∧
    (Result.lanes m w).bytes =
      ([lane w 0#2, lane w 1#2, lane w 2#2, lane w 3#2]).filter (fun b => b != 0x00#8)

/-- R97: LANE outputs the selected byte, zero or not, in lane 0 of the result. -/
def Obligations.LaneOutputsSelectedByte : Prop :=
  (∀ (k : Lane) (w : Word), decode ((0b01#2 ++ k) ++ w) = .lane k w) ∧
  (∀ (k : Lane) (w : Word), encode (.lane k w) = (0x4#4 + k.setWidth 4) ++ w) ∧
  ∀ (s : State) (k : Lane) (w : Word),
    exec (.lane k w) s = .next { s with results := s.results ++ [.lanes 0b0001#4 ((lane w k).setWidth 32)] } ∧
    (Result.lanes 0b0001#4 ((lane w k).setWidth 32)).bytes = [lane w k]

/-- R97 corner case c: one UNPACK outputs the bytes of the four LANE commands with the zero bytes removed. -/
def Obligations.UnpackIsFourLanesWithoutZeros : Prop :=
  ∀ (s : State) (w : Word), ∃ (t u : State) (bs : List Byte),
    core.run 1 (s.setPending (presentAll [.unpack w])) = .next t ∧
    core.run 4 (s.setPending (presentAll [.lane 0#2 w, .lane 1#2 w, .lane 2#2 w, .lane 3#2 w])) = .next u ∧
    bytesOf u.results = bytesOf s.results ++ bs ∧
    bytesOf t.results = bytesOf s.results ++ bs.filter (fun b => b != 0x00#8)

/-! ## bit_transposer and bit_inverse_transposer -/

/-- R121: FWD emits the word whose bit `4*(i mod 8) + (i div 8)` is bit `i` of the operand. The last clause, the same
word read from the output side, is the inference R120 marks as its own. -/
def Obligations.FwdEmitsForwardPermutation : Prop :=
  (∀ w : Word, decode (0x8#4 ++ w) = .fwd w) ∧ (∀ w : Word, encode (.fwd w) = 0x8#4 ++ w) ∧
  ∀ (s : State) (w : Word), ∃ e : Word,
    exec (.fwd w) s = .next { s with results := s.results ++ [.word e] } ∧ e = fwd w ∧
    (∀ i < 32, e.getLsbD (4 * (i % 8) + i / 8) = w.getLsbD i) ∧
    (∀ j < 32, e.getLsbD j = w.getLsbD (8 * (j % 4) + j / 4))

/-- R141: INV emits the word whose bit `8*(j mod 4) + (j div 4)` is bit `j` of the operand. The last clause, the same
word read from the output side, is the inference R140 marks as its own. -/
def Obligations.InvEmitsInversePermutation : Prop :=
  (∀ e : Word, decode (0x9#4 ++ e) = .inv e) ∧ (∀ e : Word, encode (.inv e) = 0x9#4 ++ e) ∧
  ∀ (s : State) (e : Word), ∃ w : Word,
    exec (.inv e) s = .next { s with results := s.results ++ [.word w] } ∧ w = inv e ∧
    (∀ j < 32, w.getLsbD (8 * (j % 4) + j / 4) = e.getLsbD j) ∧
    (∀ i < 32, w.getLsbD i = e.getLsbD (4 * (i % 8) + i / 8))

/-- R144: each permutation undoes the other, and `inv` is a bijection. -/
def Obligations.PermutationsUndoEachOther : Prop :=
  (∀ w : Word, inv (fwd w) = w) ∧ (∀ e : Word, fwd (inv e) = e) ∧ Function.Bijective inv

/-- R125: the index map is a bijection of 0..31 with the stated inverse, and `fwd` is a bijection of the words. -/
def Obligations.ForwardMapIsBijection : Prop :=
  (∀ i < 32, fwdIndex i < 32 ∧ invIndex (fwdIndex i) = i) ∧
  (∀ j < 32, invIndex j < 32 ∧ fwdIndex (invIndex j) = j) ∧ Function.Bijective fwd

/-- R126, R146: where a bit goes depends on its index only. -/
def Obligations.PermutationsIgnoreContent : Prop :=
  ∀ f ∈ [fwd, inv], ∀ a b : Word,
    f (a ||| b) = f a ||| f b ∧ f (a &&& b) = f a &&& f b ∧ f (a ^^^ b) = f a ^^^ f b ∧ f (~~~a) = ~~~(f a) ∧
    onesCount (f a) = onesCount a

/-- R126, and R144 for `inv`: a single bit goes to its index's image, and back. -/
def Obligations.ForwardMovesSingleBits : Prop :=
  ∀ i < 32, fwd (1#32 <<< i) = 1#32 <<< fwdIndex i ∧ inv (1#32 <<< fwdIndex i) = 1#32 <<< i

/-- R127, R145: the permutation matrix and its transpose, and the order of the permutation. -/
def Obligations.PermutationMatrixAndOrder : Prop :=
  (∀ j < 32, ∃ i < 32, permMatrix j i = true ∧ ∀ k < 32, permMatrix j k = true → k = i) ∧
  (∀ i < 32, ∃ j < 32, permMatrix j i = true ∧ ∀ k < 32, permMatrix k i = true → k = j) ∧
  (∀ (w : Word), ∀ j < 32, (fwd w).getLsbD j = (List.range 32).any (fun i => permMatrix j i && w.getLsbD i)) ∧
  (∀ (e : Word), ∀ i < 32, (inv e).getLsbD i = (List.range 32).any (fun j => permMatrix j i && e.getLsbD j)) ∧
  (∀ w : Word, fwd (fwd (fwd (fwd (fwd w)))) = w ∧ fwd (fwd (fwd (fwd w))) = inv w ∧
    inv (inv (inv (inv (inv w)))) = w)

/-- R127: the cycles of the index map on 0..31. -/
def Obligations.ForwardCyclesAreThoseListed : Prop :=
  (∀ c ∈ fwdCycles, c.map fwdIndex = c.rotate 1) ∧ fwdCycles.flatten.Perm (List.range 32) ∧
  ∀ i < 31, fwdIndex i = 4 * i % 31

/-- R122, R142, R123, R124, R143: the tables, the matrix view, the nibble view and the byte view are the same wires. -/
def Obligations.AllViewsOfThePermutationsAgree : Prop :=
  fwdTable = (List.range 32).map fwdIndex ∧ invTable = (List.range 32).map invIndex ∧
  ∀ w : Word, permuteByTable fwdTable w = fwd w ∧ permuteByTable invTable w = inv w ∧
    fwdByMatrix w = fwd w ∧ invByMatrix w = inv w ∧
    ∀ c < 8, ∀ r : Lane, (fwd w).getLsbD (4 * c + r.toNat) = (lane w r).getLsbD c ∧
      (lane (inv w) r).getLsbD c = w.getLsbD (4 * c + r.toNat)

/-- R130: an encoded word is below 2^28 exactly when all four bytes of its packed word are below 128, so the encoded
words of a 7-bit text are. -/
def Obligations.SevenBitTextEncodesBelow2Pow28 : Prop :=
  (∀ w : Word, (fwd w).toNat < 2 ^ 28 ↔ ∀ k : Lane, (lane w k).toNat < 128) ∧
  ∀ t : List Byte, Config.ascii t = true → ∀ e ∈ encodeText t, e.toNat < 2 ^ 28

/-! ## The CORE level -/

/-- R160: NOP, every word that decodes to it, and a step without a command. -/
def Obligations.NopDoesNothing : Prop :=
  (∀ x : BitVec 32, decode (0x0#4 ++ x) = .nop) ∧ encode .nop = 0x000000000#36 ∧
  (∀ s : State, exec .nop s = .next { s with results := s.results ++ [.silent] }) ∧
  (∀ (s : State) (p : InPins), p.rst = false → p.cmdValid = false →
    clockEdge p s = .next { s with results := s.results ++ [.silent] })

/-- R161: ENCB, on both of its branches; its encoding with the ignored bits `x`, and its canonical word. -/
def Obligations.EncbTakesOneByte : Prop :=
  (∀ (x : BitVec 24) (b : Byte), decode (0xA#4 ++ (x ++ b)) = .encb b) ∧
  (∀ b : Byte, encode (.encb b) = 0xA#4 ++ (0x000000#24 ++ b)) ∧
  ∀ (s : State) (b : Byte),
    (s.cnt ≠ 3#2 → exec (.encb b) s = .next
      { s with acc := s.acc ||| place b s.cnt, cnt := s.cnt + 1#2, results := s.results ++ [.silent] }) ∧
    (s.cnt = 3#2 → exec (.encb b) s = .next
      { s with acc := 0x00000000#32, cnt := 0#2, results := s.results ++ [.word (fwd (s.acc ||| place b s.cnt))] })

/-- R162: ENCF, with bytes waiting and with none; its encoding with the ignored bits `x`, and its canonical word. -/
def Obligations.EncfEndsText : Prop :=
  (∀ x : BitVec 32, decode (0xB#4 ++ x) = .encf) ∧ encode .encf = 0xB00000000#36 ∧
  ∀ s : State,
    (s.cnt ≠ 0#2 → exec .encf s = .next
      { s with acc := 0x00000000#32, cnt := 0#2, results := s.results ++ [.word (fwd s.acc)] }) ∧
    (s.cnt = 0#2 → exec .encf s = .next
      { s with acc := 0x00000000#32, cnt := 0#2, results := s.results ++ [.silent] })

/-- R163: DECW outputs the packed word `inv(e)` with its zero lanes masked off. -/
def Obligations.DecwOutputsNonzeroLanes : Prop :=
  (∀ e : Word, decode (0xC#4 ++ e) = .decw e) ∧ (∀ e : Word, encode (.decw e) = 0xC#4 ++ e) ∧
  ∀ (s : State) (e : Word), ∃ m : LaneMask,
    (∀ k : Lane, m.getLsbD k.toNat = (lane (inv e) k != 0x00#8)) ∧
    exec (.decw e) s = .next { s with results := s.results ++ [.lanes m (inv e)] } ∧
    (Result.lanes m (inv e)).bytes =
      ([lane (inv e) 0#2, lane (inv e) 1#2, lane (inv e) 2#2, lane (inv e) 3#2]).filter (fun b => b != 0x00#8)

/-- R164: the composite commands add only wiring. -/
def Obligations.CompositesAddOnlyWiring : Prop :=
  (∀ (s : State) (b : Byte), ∃ (t : State) (r : Result),
    exec (.push b) s = .next { t with results := s.results ++ [r] } ∧
    exec (.encb b) s = .next { t with results := s.results ++ [r.mapWord fwd] }) ∧
  (∀ s : State, ∃ (t : State) (r : Result),
    exec .flush s = .next { t with results := s.results ++ [r] } ∧
    exec .encf s = .next { t with results := s.results ++ [r.mapWord fwd] }) ∧
  (∀ (s : State) (e : Word), exec (.decw e) s = exec (.unpack (inv e)) s)

/-- R165, R47: four bytes, each brought in by PUSH or ENCB as the flags say, pack little-endian, first byte in the
least significant lane; whether the word leaves permuted depends on the last command only. -/
def Obligations.LeavingCommandDecidesPermutation : Prop :=
  ∀ (s : State) (ps : List InPins) (e0 e1 e2 e3 : Bool) (b0 b1 b2 b3 : Byte), s.AtTextStart →
    s.pending = presentAll
      [if e0 then .encb b0 else .push b0, if e1 then .encb b1 else .push b1,
       if e2 then .encb b2 else .push b2, if e3 then .encb b3 else .push b3] ++ ps →
    core.run 4 s = .next { s with pending := ps, results := s.results ++
      [.silent, .silent, .silent,
       .word (if e3 then fwd (b3 ++ b2 ++ b1 ++ b0) else b3 ++ b2 ++ b1 ++ b0)] }

/-! ## The exception -/

/-- R65, R193: a reserved code takes IllegalCommand: `err = 1`, every other output idle, both registers kept, for
every operand field `x` and from every state; no command source shall issue one. -/
def Obligations.ReservedCodesTakeIllegalCommand : Prop :=
  (∀ x : BitVec 32, decode (0xD#4 ++ x) = .reservedD ∧ decode (0xE#4 ++ x) = .reservedE ∧
    decode (0xF#4 ++ x) = .reservedF) ∧
  ∀ (s : State) (i : Instr) (op : OpCode),
    (i, op) ∈ [(.reservedD, 0xD#4), (.reservedE, 0xE#4), (.reservedF, 0xF#4)] →
    i.wellFormed = false ∧
    exec i s = .next { s with results := s.results ++ [.illegalCommand op] } ∧
    (Result.illegalCommand op).pins = ⟨false, 0x00000000#32, 0b0000#4, 0x00000000#32, true⟩

/-- R190, R194, R195: `err` is driven in exactly the steps that execute a reserved code: not by any defined operation,
not without a command, not in a reset step, and not because of an earlier fault. -/
def Obligations.ErrExactlyOnReservedCodes : Prop :=
  ∀ s t : State, step s = .next t →
    (t.outPins.err = true ↔ s.drivenPins.rst = false ∧ s.drivenPins.cmdValid = true ∧
      0xD ≤ (opField s.drivenPins.cmd).toNat)

/-- R195: a recorded fault is never cleared, however long the run goes on, resets included. -/
def Obligations.FaultRecordIsNeverCleared : Prop :=
  ∀ (n : Nat) (s : State), s.faultRecorded = true →
    ∃ t : State, core.run n s = .next t ∧ t.faultRecorded = true

/-- R195, R193: after a fault a run goes on as if the faulting command had been a NOP; only its own result differs. -/
def Obligations.FaultingCommandActsAsNop : Prop :=
  ∀ (n : Nat) (s : State) (i : Instr) (ps : List InPins), i ∈ [.reservedD, .reservedE, .reservedF] →
    ∃ (t u : State) (r : Result) (rs : List Result),
      core.run (n + 1) (s.setPending (presentAll [i] ++ ps)) = .next t ∧
      core.run (n + 1) (s.setPending (presentAll [.nop] ++ ps)) = .next u ∧
      t.acc = u.acc ∧ t.cnt = u.cnt ∧ t.pending = u.pending ∧ r.isIllegal = true ∧ rs.length = n ∧
      t.results = s.results ++ [r] ++ rs ∧ u.results = s.results ++ [.silent] ++ rs

/-! ## Texts and word sequences -/

/-- R95: the closed form of `pack`: its length, and every lane of every word. -/
def Obligations.PackHoldsTextLaneByLane : Prop :=
  ∀ t : List Byte, t.length ≤ 4 * (pack t).length ∧ 4 * (pack t).length < t.length + 4 ∧
    ∀ k < (pack t).length, ∀ b : Lane, lane ((pack t).getD k 0#32) b = t.getD (4 * k + b.toNat) 0#8

/-- R95: from a state where a text begins, PUSH of every byte and a FLUSH emit `pack(t)` and nothing else, and end in
such a state. -/
def Obligations.PackCommandsEmitPack : Prop :=
  ∀ (t : List Byte) (s : State) (ps : List InPins), s.AtTextStart →
    s.pending = presentAll (packCommands t) ++ ps →
    ∃ rs : List Result, core.run (t.length + 1) s = .next { s with pending := ps, results := s.results ++ rs } ∧
      rs.length = t.length + 1 ∧ wordsOf rs = pack t ∧ bytesOf rs = [] ∧ ∀ r ∈ rs, r.isIllegal = false

/-- R49, R214: a text that is not ended leaves its last group waiting: `cnt` bytes of it, in lanes 0 and up of `acc`,
and only its full groups have been emitted. -/
def Obligations.UnendedTextWaitsInGroup : Prop :=
  ∀ (t : List Byte) (s : State) (ps : List InPins), s.AtTextStart →
    s.pending = presentAll (t.map .push) ++ ps →
    ∃ (u : State) (rs : List Result), core.run t.length s = .next u ∧ u.pending = ps ∧
      u.cnt.toNat = t.length % 4 ∧ u.acc = packedWord t (t.length / 4) ∧ u.results = s.results ++ rs ∧
      wordsOf rs = (pack t).take (t.length / 4)

/-- R167, R170: the same for ENCB and ENCF, which emit `encode(t)`, `ceil(len(t)/4)` words. -/
def Obligations.EncodeCommandsEmitEncode : Prop :=
  ∀ (t : List Byte) (s : State) (ps : List InPins), s.AtTextStart →
    s.pending = presentAll (encodeCommands t) ++ ps →
    ∃ rs : List Result, core.run (t.length + 1) s = .next { s with pending := ps, results := s.results ++ rs } ∧
      wordsOf rs = encodeText t ∧ (wordsOf rs).length = ceilDiv t.length 4 ∧ bytesOf rs = [] ∧
      ∀ r ∈ rs, r.isIllegal = false

/-- R98: UNPACK of every word outputs `unpack(ws)`, from any state, and keeps the registers. -/
def Obligations.UnpackCommandsOutputUnpack : Prop :=
  ∀ (ws : List Word) (s : State) (ps : List InPins), s.pending = presentAll (unpackCommands ws) ++ ps →
    ∃ rs : List Result, core.run ws.length s = .next { s with pending := ps, results := s.results ++ rs } ∧
      bytesOf rs = unpack ws ∧ wordsOf rs = [] ∧ (∀ r ∈ rs, r.isIllegal = false) ∧
      (unpack ws).length ≤ 4 * ws.length

/-- R168: DECW of every word outputs `decode(es)`, from any state, and keeps the registers. -/
def Obligations.DecodeCommandsOutputDecode : Prop :=
  ∀ (es : List Word) (s : State) (ps : List InPins), s.pending = presentAll (decodeCommands es) ++ ps →
    ∃ rs : List Result, core.run es.length s = .next { s with pending := ps, results := s.results ++ rs } ∧
      bytesOf rs = decodeWords es ∧ wordsOf rs = [] ∧ ∀ r ∈ rs, r.isIllegal = false

/-- R99, R101: packing and unpacking a text gives it back without its zero bytes, so exactly when it has none. -/
def Obligations.PackThenUnpackDropsZeroBytes : Prop :=
  ∀ t : List Byte, unpack (pack t) = t.filter (fun b => b != 0x00#8) ∧
    (unpack (pack t) = t ↔ Config.nulFree t = true)

/-- R169, R171, R176: encoding a text on the machine and decoding the words it emitted outputs the text without its
zero bytes, so the text itself when it has none; the run ends clean if it was clean before. -/
def Obligations.EncodeThenDecodeRoundTrip : Prop :=
  ∀ (t : List Byte) (s : State), s.AtTextStart → s.faultRecorded = false →
    ∃ (u v : State) (rs qs : List Result),
      core.run (t.length + 1) (s.setPending (presentAll (encodeCommands t))) = .next u ∧
      u.results = s.results ++ rs ∧ u.EndsClean ∧
      core.run (wordsOf rs).length (u.setPending (presentAll (decodeCommands (wordsOf rs)))) = .next v ∧
      v.results = u.results ++ qs ∧ v.EndsClean ∧
      bytesOf qs = t.filter (fun b => b != 0x00#8) ∧ (Config.nulFree t = true → bytesOf qs = t)

/-- R173: decode is not injective, and encoding a decoded sequence need not give it back, with the rule's examples. -/
def Obligations.DecodeIsNotInjective : Prop :=
  decodeWords [0x01000001#32] = [0x41#8] ∧ decodeWords [0x01000001#32, 0#32] = [0x41#8] ∧
  decodeWords [0x00000002#32] = decodeWords [0x00000001#32] ∧
  ∃ es : List Word, encodeText (decodeWords es) ≠ es

/-- R173, P1: whether encode is onto depends on the texts meant, which the rule does not say and P1 leaves to the
claim (DESIGN CHOICE, notes/assumptions/18.md): over texts of all bytes every word sequence is the encoding of one;
over texts without a zero byte, and over 7-bit texts, not every one is. -/
def Obligations.EncodeIsOntoOnlyWithEveryByte : Prop :=
  (∀ es : List Word, ∃ t : List Byte, encodeText t = es) ∧
  (∃ es : List Word, ∀ t : List Byte, Config.nulFree t = true → encodeText t ≠ es) ∧
  (∃ es : List Word, ∀ t : List Byte, Config.ascii t = true → encodeText t ≠ es)

/-- R24, R27: the command sequence is a parameter of a run. What a run of the pins `ps` does is fixed by the registers
and `ps`; what is driven later and what was recorded before stay outside it; and of its first part only the registers
carry over to its second. -/
def Obligations.RegistersAloneCarryARun : Prop :=
  (∀ (s : State) (ps qs : List InPins), s.pending = ps ++ qs →
    ∃ (g : Registers) (rs : List Result), s.toRegisters.run ps = .next ⟨g, [], rs⟩ ∧ rs.length = ps.length ∧
      core.run ps.length s = .next ⟨g, qs, s.results ++ rs⟩) ∧
  (∀ (g : Registers) (ps qs : List InPins), ∃ (h k : Registers) (rs us : List Result),
    g.run ps = .next ⟨h, [], rs⟩ ∧ h.run qs = .next ⟨k, [], us⟩ ∧ g.run (ps ++ qs) = .next ⟨k, [], rs ++ us⟩)

/-- R53 c, R195: a command that leaves the group alone, put anywhere in what the environment drives (resets and idle
edges included), changes no other result and no register. -/
def Obligations.PureCommandsMayBeInterleaved : Prop :=
  ∀ (s : State) (xs ys : List InPins) (i : Instr), i.leavesGroup = true →
    ∃ (t u : State) (as bs : List Result) (r : Result),
      core.run (xs.length + ys.length) (s.setPending (xs ++ ys)) = .next t ∧
      core.run (xs.length + (ys.length + 1)) (s.setPending (xs ++ presentAll [i] ++ ys)) = .next u ∧
      as.length = xs.length ∧ t.results = s.results ++ as ++ bs ∧ u.results = s.results ++ as ++ [r] ++ bs ∧
      t.acc = u.acc ∧ t.cnt = u.cnt

/-! ## Encoding -/

/-- R64, R68: decoding the canonical word of a command gives the command back, every operand at every value. The word
of a reserved code is the model's choice (notes/assumptions/17.md). -/
def Obligations.DecodeOfEncodeIsIdentity : Prop := ∀ i : Instr, decode (encode i) = i

/-- R64: the whole decoder, on every command word, by its operation code; a step without a command is a NOP. -/
def Obligations.DecodingFollowsOperationCode : Prop :=
  (∀ c : Cmd, decode c =
    match (c.extractLsb' 32 4).toNat with
    | 0x0 => .nop
    | 0x1 => .push (c.extractLsb' 0 8)
    | 0x2 => .flush
    | 0x3 => .unpack (c.extractLsb' 0 32)
    | 0x4 => .lane 0#2 (c.extractLsb' 0 32)
    | 0x5 => .lane 1#2 (c.extractLsb' 0 32)
    | 0x6 => .lane 2#2 (c.extractLsb' 0 32)
    | 0x7 => .lane 3#2 (c.extractLsb' 0 32)
    | 0x8 => .fwd (c.extractLsb' 0 32)
    | 0x9 => .inv (c.extractLsb' 0 32)
    | 0xA => .encb (c.extractLsb' 0 8)
    | 0xB => .encf
    | 0xC => .decw (c.extractLsb' 0 32)
    | 0xD => .reservedD
    | 0xE => .reservedE
    | _ => .reservedF) ∧
  (∀ (s : State) (c : Cmd), clockEdge ⟨false, false, c⟩ s = exec .nop s)

/-- R66: a command word and its canonical form: the ignored bits become zero and no other bit changes. For the three
reserved codes this is the model's choice: R66 speaks of formats N and B only, that their operand field is looked at
nowhere is notes/assumptions/5.md, and that their encoding has it zero is notes/assumptions/17.md. -/
def Obligations.EncodeOfDecodeClearsIgnoredBits : Prop :=
  (∀ (op : OpCode) (x : BitVec 32), op ∈ [0x0#4, 0x2#4, 0xB#4, 0xD#4, 0xE#4, 0xF#4] →
    encode (decode (op ++ x)) = op ++ 0#32) ∧
  (∀ (op : OpCode) (x : BitVec 24) (b : Byte), op ∈ [0x1#4, 0xA#4] →
    encode (decode (op ++ (x ++ b))) = op ++ (0#24 ++ b)) ∧
  (∀ (op : OpCode) (w : Word), op ∈ [0x3#4, 0x4#4, 0x5#4, 0x6#4, 0x7#4, 0x8#4, 0x9#4, 0xC#4] →
    encode (decode (op ++ w)) = op ++ w)

/-- R63, R64: words written out from the spec's encodings decode to the commands they stand for. -/
def Obligations.WrittenOutWordsDecode : Prop :=
  decode 0x000000000#36 = .nop ∧ decode 0x100000041#36 = .push 0x41#8 ∧ decode 0x200000000#36 = .flush ∧
  decode 0x344455246#36 = .unpack 0x44455246#32 ∧ decode 0x744455246#36 = .lane 3#2 0x44455246#32 ∧
  decode 0x844455246#36 = .fwd 0x44455246#32 ∧ decode 0x90F020D34#36 = .inv 0x0F020D34#32 ∧
  decode 0xA00000041#36 = .encb 0x41#8 ∧ decode 0xB00000000#36 = .encf ∧
  decode 0xC0F020D34#36 = .decw 0x0F020D34#32 ∧ decode 0xFDEADBEEF#36 = .reservedF

/-- 92_eei_decisions.md D23, R60: a number of 2^36 or more is no command word and is refused, never truncated. -/
def Obligations.NumbersWiderThanCommandAreRefused : Prop :=
  ∀ nbits w : Nat, (decodeTableWord nbits w = none ↔ 2 ^ 36 ≤ w) ∧
    (∀ c : Cmd, w = c.toNat → decodeTableWord nbits w = some (decode c))

/-- The opcode table: of its thirteen rows exactly a command's own claims its canonical word (a
reserved code's word is the model's choice, notes/assumptions/17.md). -/
def Obligations.EveryCommandStandsInItsOwnRow : Prop :=
  ∀ i : Instr, Sys2Proof.Laws.InItsTableRow.Statement i

/-- R68, R69: the command words of every statement of the assembler: the canonical word of each command, a raw word
as it stands, and the words of each pseudo-instruction. -/
def Obligations.AssemblerWritesCanonicalWords : Prop :=
  ∀ (b : Byte) (k : Lane) (w : Word) (c : Cmd) (t : List Byte) (ws : List Word),
    Asm.assemble (.rawWord c.toNat) = .ok [c] ∧
    Asm.assemble (.packText (t.map (fun b => (b.toNat : Int)))) =
      .ok (t.map (fun b => 0x1#4 ++ (0#24 ++ b)) ++ [0x2#4 ++ 0#32]) ∧
    Asm.assemble (.encodeText (t.map (fun b => (b.toNat : Int)))) =
      .ok (t.map (fun b => 0xA#4 ++ (0#24 ++ b)) ++ [0xB#4 ++ 0#32]) ∧
    Asm.assemble (.unpacks (ws.map (fun w => (w.toNat : Int)))) = .ok (ws.map (fun w => 0x3#4 ++ w)) ∧
    Asm.assemble (.decodeWords (ws.map (fun w => (w.toNat : Int)))) = .ok (ws.map (fun w => 0xC#4 ++ w)) ∧
    Asm.assemble (.laneAt k w.toNat) = .ok [(0x4#4 + k.setWidth 4) ++ w] ∧
    Asm.assemble .nop = .ok [0x0#4 ++ 0#32] ∧
    Asm.assemble (.push b.toNat) = .ok [0x1#4 ++ (0#24 ++ b)] ∧
    Asm.assemble .flush = .ok [0x2#4 ++ 0#32] ∧
    Asm.assemble (.unpack w.toNat) = .ok [0x3#4 ++ w] ∧
    Asm.assemble (.lane k.toNat w.toNat) = .ok [(0x4#4 + k.setWidth 4) ++ w] ∧
    Asm.assemble (.fwd w.toNat) = .ok [0x8#4 ++ w] ∧
    Asm.assemble (.inv w.toNat) = .ok [0x9#4 ++ w] ∧
    Asm.assemble (.encb b.toNat) = .ok [0xA#4 ++ (0#24 ++ b)] ∧
    Asm.assemble .encf = .ok [0xB#4 ++ 0#32] ∧
    Asm.assemble (.decw w.toNat) = .ok [0xC#4 ++ w]

/-- R69: the pseudo-instructions expand to the commands listed and to nothing else. -/
def Obligations.PseudoInstructionsExpandAsListed : Prop :=
  ∀ (t : List Byte) (ws : List Word) (k : Lane) (w : Word),
    Asm.expand (.packText (t.map (fun b => (b.toNat : Int)))) = .ok (t.map .push ++ [.flush]) ∧
    Asm.expand (.encodeText (t.map (fun b => (b.toNat : Int)))) = .ok (t.map .encb ++ [.encf]) ∧
    Asm.expand (.unpacks (ws.map (fun w => (w.toNat : Int)))) = .ok (ws.map .unpack) ∧
    Asm.expand (.decodeWords (ws.map (fun w => (w.toNat : Int)))) = .ok (ws.map .decw) ∧
    Asm.expand (.laneAt k w.toNat) = .ok [.lane k w]

/-- R68, 93_implementation_defined.md U1, U2: the assembler accepts a statement exactly when every operand fits its
field, and otherwise names the reason. -/
def Obligations.AssemblerAcceptsExactlyWhatFits : Prop :=
  ∀ a : Asm, (a.wellFormed = true → ∃ cs : List Cmd, Asm.assemble a = .ok cs) ∧
    (a.wellFormed = false → Asm.assemble a = .error .operandRange)

/-! ## The hardware structure -/

/-- R46, R102, R41: the CORE built of its three sub-blocks, with the transposers as tables of wires, drives the outputs
and loads the registers exactly as the clock edge of the model does, for every input and every state. What drives an
unused net is the model's choice (notes/assumptions/12.md); the statement holds for that choice. -/
def Obligations.SubBlocksImplementClockEdge : Prop :=
  ∀ (p : InPins) (s : State), ∃ t : State, clockEdge p s = .next t ∧
    t.outPins = Blocks.coreOut p s.acc s.cnt ∧ (t.acc, t.cnt) = Blocks.coreNext p s.acc s.cnt ∧
    t.pending = s.pending
end

