-- ==== Sys2Proof/Laws/Lanes.lean ====
section
/-! SUPPORT. The bits of a lane, of a placed byte and of the non-zero mask (40_packer.md R90, R91, R96). -/

namespace Sys2Proof.Machine

theorem laneOffset_le (s : Lane) : laneOffset s ≤ 24 := by
  have := s.isLt
  unfold laneOffset
  omega

/-- Bit `k` of lane `s` is bit `8*s + k` of the word. -/
theorem lane_getLsbD (w : Word) (s : Lane) (k : Nat) :
    (lane w s).getLsbD k = (decide (k < 8) && w.getLsbD (laneOffset s + k)) := by
  simp [lane]

/-- Bit `i` of a placed byte is bit `i - 8*s` of the byte, inside the lane, and 0 outside. -/
theorem place_getLsbD (b : Byte) (s : Lane) (i : Nat) :
    (place b s).getLsbD i = (decide (laneOffset s ≤ i) && b.getLsbD (i - laneOffset s)) := by
  have h := laneOffset_le s
  simp only [place, BitVec.getLsbD_shiftLeft, BitVec.getLsbD_setWidth]
  by_cases hi : i < 32
  · by_cases hl : i < laneOffset s
    · simp [hi, hl]
    · have : i - laneOffset s < 32 := by omega
      simp [hi, hl, this, Nat.not_lt.mp hl]
  · have hb : b.getLsbD (i - laneOffset s) = false := BitVec.getLsbD_of_ge _ _ (by omega)
    simp [hi, hb]

/-- The four bits of a mask built from four conditions. -/
theorem mask_getLsbD (b0 b1 b2 b3 : Bool) (s : Lane) :
    (BitVec.ofBool b3 ++ BitVec.ofBool b2 ++ BitVec.ofBool b1 ++ BitVec.ofBool b0).getLsbD s.toNat =
      (if s = 0#2 then b0 else if s = 1#2 then b1 else if s = 2#2 then b2 else b3) := by
  revert b0 b1 b2 b3 s
  decide

/-- A lane number is one of four. -/
theorem lane_cases (s : Lane) : s = 0#2 ∨ s = 1#2 ∨ s = 2#2 ∨ s = 3#2 := by
  revert s
  decide

/-- Bit `s` of the mask says that lane `s` is not zero. -/
theorem nonzeroLanes_getLsbD (w : Word) (s : Lane) :
    (nonzeroLanes w).getLsbD s.toNat = (lane w s != 0#8) := by
  rw [nonzeroLanes, mask_getLsbD]
  rcases lane_cases s with rfl | rfl | rfl | rfl <;> simp

/-- The bytes of a word's masked lanes are its non-zero lanes, in order. -/
theorem bytes_nonzeroLanes (w : Word) :
    (Result.lanes (nonzeroLanes w) w).bytes = (allLanes.map (lane w)).filter (fun b => b != 0#8) := by
  simp only [Result.bytes, nonzeroLanes_getLsbD, List.filter_map]
  rfl

end Sys2Proof.Machine
end

