-- ==== Sys2Proof/Laws/Blocks.lean ====
section
/-! SUPPORT. What the gates of `byte_packer` compute, said once in the terms of the operation rules. -/

namespace Sys2Proof.Machine.Blocks

/-- The multiplexer selects the lane. -/
theorem laneMux_eq (w : Word) (sel : Lane) : laneMux w sel = lane w sel := by
  apply BitVec.eq_of_getLsbD_eq
  intro i hi
  rw [lane_getLsbD]
  rcases lane_cases sel with rfl | rfl | rfl | rfl <;> exact BitVec.getLsbD_extractLsb' ..

/-- The OR gate on lane `k` says that the lane is not zero. -/
theorem orGate_eq (w : Word) (k : Lane) : orGate w (8 * k.toNat) = (lane w k != 0#8) := by
  rw [Bool.eq_iff_iff, bne_iff_ne]
  simp only [orGate, List.any_eq_true, List.mem_range]
  constructor
  · rintro ⟨i, hi, h⟩ hz
    have hb := lane_getLsbD w k i
    rw [hz] at hb
    simp [laneOffset, hi, h] at hb
  · intro h
    by_contra hc
    apply h
    apply BitVec.eq_of_getLsbD_eq
    intro i hi
    have hb : w.getLsbD (8 * k.toNat + i) = false := by
      by_contra ht
      exact hc ⟨i, hi, by simpa using ht⟩
    rw [lane_getLsbD, laneOffset, hb]
    simp

/-- The four OR gates give the non-zero mask. -/
theorem packerOut_unpNz (acc : Word) (n : Lane) (i : PackerIn) :
    (packerOut acc n i).unpNz = nonzeroLanes i.unpWord := by
  have h0 := orGate_eq i.unpWord 0#2
  have h1 := orGate_eq i.unpWord 1#2
  have h2 := orGate_eq i.unpWord 2#2
  have h3 := orGate_eq i.unpWord 3#2
  simp only [BitVec.toNat_ofNat, Nat.reducePow, Nat.reduceMod, Nat.reduceMul] at h0 h1 h2 h3
  simp only [packerOut, nonzeroLanes, h0, h1, h2, h3]

/-- Without a push the merged word is the accumulator. -/
theorem merged_of_idle (acc : Word) (n : Lane) (i : PackerIn) (h : i.push = false) : merged acc n i = acc := by
  simp only [merged, h, mergeLane]
  apply BitVec.eq_of_getLsbD_eq
  intro j hj
  simp only [BitVec.getLsbD_append]
  interval_cases j <;> simp

/-- With a push the merged word is the accumulator with the byte placed in lane `cnt`. -/
theorem merged_of_push (acc : Word) (n : Lane) (i : PackerIn) (h : i.push = true) :
    merged acc n i = acc ||| place i.byteIn n := by
  simp only [merged, h, mergeLane, if_true]
  apply BitVec.eq_of_getLsbD_eq
  intro j hj
  simp only [BitVec.getLsbD_append, BitVec.getLsbD_or, place_getLsbD]
  rcases lane_cases n with rfl | rfl | rfl | rfl <;> interval_cases j <;> simp [laneEnables, laneOffset]

end Sys2Proof.Machine.Blocks
end

