-- ==== Sys2Proof/Laws/Decode.lean ====
section
/-! SUPPORT. The fields of a command word written as its operation code in front of its operand field, and the decoder
on it: every proof about encodings reads bits through these. -/

namespace Sys2Proof

theorem append_getLsbD_high (op : OpCode) (w : Word) (k : Nat) :
    (op ++ w : Cmd).getLsbD (32 + k) = op.getLsbD k := by
  rw [BitVec.getLsbD_append]
  simp [-BitVec.getLsbD_eq_getElem]

theorem append_getLsbD_low (op : OpCode) (w : Word) (k : Nat) (h : k < 32) :
    (op ++ w : Cmd).getLsbD k = w.getLsbD k := by
  rw [BitVec.getLsbD_append]
  simp [-BitVec.getLsbD_eq_getElem, h]

theorem opField_append (op : OpCode) (w : Word) : opField (op ++ w) = op := by
  apply BitVec.eq_of_getLsbD_eq
  intro i hi
  rw [opField, BitVec.getLsbD_extractLsb', append_getLsbD_high]
  simp [hi]

theorem wordField_append (op : OpCode) (w : Word) : wordField (op ++ w) = w := by
  apply BitVec.eq_of_getLsbD_eq
  intro i hi
  rw [wordField, BitVec.getLsbD_extractLsb', Nat.zero_add, append_getLsbD_low _ _ _ hi]
  simp [hi]

theorem byteField_append (op : OpCode) (x : BitVec 24) (b : Byte) : byteField (op ++ (x ++ b)) = b := by
  apply BitVec.eq_of_getLsbD_eq
  intro i hi
  rw [byteField, BitVec.getLsbD_extractLsb', Nat.zero_add, append_getLsbD_low _ _ _ (by omega), BitVec.getLsbD_append]
  simp [hi]

theorem selField_append (op : OpCode) (w : Word) : selField (op ++ w) = op.extractLsb' 0 2 := by
  apply BitVec.eq_of_getLsbD_eq
  intro i hi
  rw [selField, BitVec.getLsbD_extractLsb', append_getLsbD_high, BitVec.getLsbD_extractLsb', Nat.zero_add]

/-- Every command word is its operation code in front of its operand field. -/
theorem eq_opField_append_wordField (c : Cmd) : c = opField c ++ wordField c := by
  apply BitVec.eq_of_getLsbD_eq
  intro i hi
  rw [BitVec.getLsbD_append]
  split
  · rename_i h
    rw [wordField, BitVec.getLsbD_extractLsb']
    simp [h]
  · rename_i h
    rw [opField, BitVec.getLsbD_extractLsb', Nat.add_sub_cancel' (by omega)]
    simp
    omega

/-- The decoder on an operation code and an operand field; for a given code it computes. -/
theorem decode_append (op : OpCode) (w : Word) :
    decode (op ++ w) =
      match op.getLsbD 3, op.getLsbD 2, op.getLsbD 1, op.getLsbD 0 with
      | false, false, false, false => .nop
      | false, false, false, true => .push (byteField (op ++ w))
      | false, false, true, false => .flush
      | false, false, true, true => .unpack w
      | false, true, _, _ => .lane (op.extractLsb' 0 2) w
      | true, false, false, false => .fwd w
      | true, false, false, true => .inv w
      | true, false, true, false => .encb (byteField (op ++ w))
      | true, false, true, true => .encf
      | true, true, false, false => .decw w
      | true, true, false, true => .reservedD
      | true, true, true, false => .reservedE
      | true, true, true, true => .reservedF := by
  have h0 : (op ++ w : Cmd).getLsbD 32 = op.getLsbD 0 := append_getLsbD_high op w 0
  have h1 : (op ++ w : Cmd).getLsbD 33 = op.getLsbD 1 := append_getLsbD_high op w 1
  have h2 : (op ++ w : Cmd).getLsbD 34 = op.getLsbD 2 := append_getLsbD_high op w 2
  have h3 : (op ++ w : Cmd).getLsbD 35 = op.getLsbD 3 := append_getLsbD_high op w 3
  simp only [decode, h0, h1, h2, h3, wordField_append, selField_append]
  all_goals rfl

end Sys2Proof
end

