-- ==== Sys2Proof/Laws/Functions.lean ====
section
/-! SUPPORT. The closed form of `pack` group by group (40_packer.md R95), and the word-list functions on a cons. -/

namespace Sys2Proof.Machine

@[simp] theorem pack_nil : pack [] = [] := rfl

@[simp] theorem pack_one (a : Byte) : pack [a] = [0#32 ||| place a 0#2] := by
  simp [pack, ceilDiv, packedWord, allLanes]

@[simp] theorem pack_two (a b : Byte) : pack [a, b] = [0#32 ||| place a 0#2 ||| place b 1#2] := by
  simp [pack, ceilDiv, packedWord, allLanes]

@[simp] theorem pack_three (a b c : Byte) :
    pack [a, b, c] = [0#32 ||| place a 0#2 ||| place b 1#2 ||| place c 2#2] := by
  simp [pack, ceilDiv, packedWord, allLanes]

/-- A word of the text after its first four bytes is the next word of the text. -/
theorem packedWord_cons4 (a b c d : Byte) (t : List Byte) (k : Nat) :
    packedWord (a :: b :: c :: d :: t) (k + 1) = packedWord t k := by
  have hlen (n : Nat) : 4 * (k + 1) + n < (a :: b :: c :: d :: t).length ↔ 4 * k + n < t.length := by
    simp only [List.length_cons]
    omega
  have hget (n : Nat) : (a :: b :: c :: d :: t).getD (4 * (k + 1) + n) 0#8 = t.getD (4 * k + n) 0#8 := by
    rw [show 4 * (k + 1) + n = 4 * k + n + 4 by omega]
    rfl
  simp only [packedWord, hlen, hget]

/-- Four bytes make the first word and the rest of the text makes the rest. -/
theorem pack_cons4 (a b c d : Byte) (t : List Byte) :
    pack (a :: b :: c :: d :: t) =
      (0#32 ||| place a 0#2 ||| place b 1#2 ||| place c 2#2 ||| place d 3#2) :: pack t := by
  have hlen : ceilDiv (a :: b :: c :: d :: t).length 4 = ceilDiv t.length 4 + 1 := by
    simp only [ceilDiv, List.length_cons]
    omega
  rw [pack, hlen, List.range_succ_eq_map, List.map_cons, List.map_map]
  refine congrArg₂ _ (by simp [packedWord, allLanes]) (List.map_congr_left (fun k _ => packedWord_cons4 a b c d t k))

@[simp] theorem unpack_nil : unpack [] = [] := rfl

theorem unpack_cons (w : Word) (ws : List Word) :
    unpack (w :: ws) = (allLanes.map (lane w)).filter (fun b => b != 0#8) ++ unpack ws := by
  simp [unpack]

@[simp] theorem wordsOf_nil : wordsOf [] = [] := rfl

@[simp] theorem bytesOf_nil : bytesOf [] = [] := rfl

theorem wordsOf_cons (r : Result) (rs : List Result) : wordsOf (r :: rs) = r.word?.toList ++ wordsOf rs := by
  cases r <;> rfl

theorem bytesOf_cons (r : Result) (rs : List Result) : bytesOf (r :: rs) = r.bytes ++ bytesOf rs := rfl

theorem wordsOf_append (xs ys : List Result) : wordsOf (xs ++ ys) = wordsOf xs ++ wordsOf ys := by
  simp [wordsOf]

theorem bytesOf_append (xs ys : List Result) : bytesOf (xs ++ ys) = bytesOf xs ++ bytesOf ys := by
  simp [bytesOf]

end Sys2Proof.Machine
end

