-- ==== Sys2Proof/Laws/State.lean ====
section
/-! SUPPORT. One lemma per field per update of the state. -/

namespace Sys2Proof.Machine.State

variable (s : State) (a : Word) (n : Lane) (ps : List InPins) (r : Result)

@[simp] theorem setGroup_acc : (s.setGroup a n).acc = a := rfl
@[simp] theorem setGroup_cnt : (s.setGroup a n).cnt = n := rfl
@[simp] theorem setGroup_pending : (s.setGroup a n).pending = s.pending := rfl
@[simp] theorem setGroup_results : (s.setGroup a n).results = s.results := rfl

@[simp] theorem setGroup_toRegisters : (s.setGroup a n).toRegisters = ⟨a, n⟩ := rfl

@[simp] theorem clearGroup_acc : s.clearGroup.acc = 0#32 := rfl
@[simp] theorem clearGroup_cnt : s.clearGroup.cnt = 0#2 := rfl
@[simp] theorem clearGroup_pending : s.clearGroup.pending = s.pending := rfl
@[simp] theorem clearGroup_results : s.clearGroup.results = s.results := rfl

@[simp] theorem clearGroup_toRegisters : s.clearGroup.toRegisters = ⟨0#32, 0#2⟩ := rfl

@[simp] theorem setPending_acc : (s.setPending ps).acc = s.acc := rfl
@[simp] theorem setPending_cnt : (s.setPending ps).cnt = s.cnt := rfl
@[simp] theorem setPending_pending : (s.setPending ps).pending = ps := rfl
@[simp] theorem setPending_results : (s.setPending ps).results = s.results := rfl

@[simp] theorem setPending_toRegisters : (s.setPending ps).toRegisters = s.toRegisters := rfl

@[simp] theorem emit_acc : (s.emit r).acc = s.acc := rfl
@[simp] theorem emit_cnt : (s.emit r).cnt = s.cnt := rfl
@[simp] theorem emit_pending : (s.emit r).pending = s.pending := rfl
@[simp] theorem emit_results : (s.emit r).results = s.results ++ [r] := rfl

@[simp] theorem emit_toRegisters : (s.emit r).toRegisters = s.toRegisters := rfl

@[simp] theorem afterEdge_acc : s.afterEdge.acc = s.acc := rfl
@[simp] theorem afterEdge_cnt : s.afterEdge.cnt = s.cnt := rfl
@[simp] theorem afterEdge_pending : s.afterEdge.pending = s.pending.tail := rfl
@[simp] theorem afterEdge_results : s.afterEdge.results = s.results := rfl
@[simp] theorem afterEdge_toRegisters : s.afterEdge.toRegisters = s.toRegisters := rfl

/-- The pins of a step are those of the result it emits. -/
@[simp] theorem outPins_emit : (s.emit r).outPins = r.pins := by simp [outPins]

/-- The fault record grows by the step's own fault only. -/
@[simp] theorem faultRecorded_emit : (s.emit r).faultRecorded = (s.faultRecorded || r.isIllegal) := by
  simp [faultRecorded]

/-- What is recorded depends on the results only. -/
theorem faultRecorded_congr {s t : State} (h : s.results = t.results) : s.faultRecorded = t.faultRecorded := by
  simp [faultRecorded, h]

end Sys2Proof.Machine.State
end

