-- ==== Sys2Proof/Laws/Ops.lean ====
section
/-! SUPPORT. What each shared operation does, said once. -/

namespace Sys2Proof.Machine

variable (s : State) (route : Word → Word) (b : Byte) (w : Word) (op : OpCode)

theorem groupFull_iff (n : Lane) : groupFull n = true ↔ n = 3#2 := by simp [groupFull]

theorem groupPending_iff (n : Lane) : groupPending n = true ↔ n ≠ 0#2 := by simp [groupPending]

/-- The fourth byte of a group: its word leaves and the registers are cleared. -/
theorem State.takeByte_of_full (h : s.cnt = 3#2) :
    s.takeByte route b = (s.setGroup 0#32 0#2).emit (.word (route (s.acc ||| place b s.cnt))) := by
  simp [State.takeByte, groupFull, h, State.clearGroup]

/-- A byte that leaves the group incomplete: it is merged and counted, nothing leaves. -/
theorem State.takeByte_of_not_full (h : s.cnt ≠ 3#2) :
    s.takeByte route b = (s.setGroup (s.acc ||| place b s.cnt) (s.cnt + 1#2)).emit .silent := by
  simp [State.takeByte, groupFull, h]

/-- The end of a text with bytes waiting: their word leaves and the registers are cleared. -/
theorem State.endText_of_pending (h : s.cnt ≠ 0#2) :
    s.endText route = (s.setGroup 0#32 0#2).emit (.word (route s.acc)) := by
  simp [State.endText, groupPending, h, State.clearGroup]

/-- The end of a text with nothing waiting: nothing leaves, the registers are cleared. -/
theorem State.endText_of_idle (h : s.cnt = 0#2) :
    s.endText route = (s.setGroup 0#32 0#2).emit .silent := by
  simp [State.endText, groupPending, h, State.clearGroup]

@[simp] theorem State.takeByte_pending : (s.takeByte route b).pending = s.pending := by
  by_cases h : s.cnt = 3#2 <;> simp [State.takeByte_of_full, State.takeByte_of_not_full, h]

@[simp] theorem State.endText_pending : (s.endText route).pending = s.pending := by
  by_cases h : s.cnt = 0#2 <;> simp [State.endText_of_pending, State.endText_of_idle, h]

@[simp] theorem State.endText_acc : (s.endText route).acc = 0#32 := by
  by_cases h : s.cnt = 0#2 <;> simp [State.endText_of_pending, State.endText_of_idle, h]

@[simp] theorem State.endText_cnt : (s.endText route).cnt = 0#2 := by
  by_cases h : s.cnt = 0#2 <;> simp [State.endText_of_pending, State.endText_of_idle, h]

/-- What is driven when something is in hand. -/
@[simp] theorem State.drivenPins_cons (p : InPins) (ps : List InPins) :
    (s.setPending (p :: ps)).drivenPins = p := rfl

end Sys2Proof.Machine
end

