-- ==== Sys2Proof/Laws/Step.lean ====
section
/-! SUPPORT. What a step can do, said once: it sets the group and emits one result, and both depend on the group and
the command only. -/

namespace Sys2Proof.Machine

/-- The registers a command leaves, from the registers it finds. -/
def groupAfter (i : Instr) (a : Word) (n : Lane) : Word × Lane :=
  match i with
  | .nop | .unpack _ | .lane _ _ | .fwd _ | .inv _ | .decw _ => (a, n)
  | .push b | .encb b => if n = 3#2 then (0#32, 0#2) else (a ||| place b n, n + 1#2)
  | .flush | .encf => (0#32, 0#2)
  | .reservedD | .reservedE | .reservedF => (a, n)

/-- The result of a command, from the registers it finds. -/
def resultOf (i : Instr) (a : Word) (n : Lane) : Result :=
  match i with
  | .nop => .silent
  | .push b => if n = 3#2 then .word (a ||| place b n) else .silent
  | .flush => if n = 0#2 then .silent else .word a
  | .unpack w => .lanes (nonzeroLanes w) w
  | .lane sel w => .lanes 1#4 ((lane w sel).setWidth 32)
  | .fwd w => .word (fwd w)
  | .inv e => .word (inv e)
  | .encb b => if n = 3#2 then .word (fwd (a ||| place b n)) else .silent
  | .encf => if n = 0#2 then .silent else .word (fwd a)
  | .decw e => .lanes (nonzeroLanes (inv e)) (inv e)
  | .reservedD => .illegalCommand 0xD#4
  | .reservedE => .illegalCommand 0xE#4
  | .reservedF => .illegalCommand 0xF#4

/-- Every command answers a next state: its group set and its one result emitted. -/
theorem exec_eq (i : Instr) (s : State) :
    exec i s = .next ((s.setGroup (groupAfter i s.acc s.cnt).1 (groupAfter i s.acc s.cnt).2).emit
      (resultOf i s.acc s.cnt)) := by
  cases i with
  | push b | encb b =>
    by_cases h : s.cnt = 3#2 <;>
      simp [exec, execPush, execEncb, groupAfter, resultOf, State.takeByte_of_full, State.takeByte_of_not_full, h]
  | flush | encf =>
    by_cases h : s.cnt = 0#2 <;>
      simp [exec, execFlush, execEncf, groupAfter, resultOf, State.endText_of_pending, State.endText_of_idle, h]
  | nop | unpack _ | lane _ _ | fwd _ | inv _ | decw _ | reservedD | reservedE | reservedF => rfl

/-- The registers a clock edge leaves. -/
def edgeGroup (p : InPins) (a : Word) (n : Lane) : Word × Lane :=
  if p.rst then (0#32, 0#2) else groupAfter p.command a n

/-- The result of a clock edge. -/
def edgeResult (p : InPins) (a : Word) (n : Lane) : Result :=
  if p.rst then .silent else resultOf p.command a n

/-- Every clock edge answers a next state. -/
theorem clockEdge_eq (p : InPins) (s : State) :
    clockEdge p s = .next ((s.setGroup (edgeGroup p s.acc s.cnt).1 (edgeGroup p s.acc s.cnt).2).emit
      (edgeResult p s.acc s.cnt)) := by
  by_cases h : p.rst = true <;> simp [clockEdge, edgeGroup, edgeResult, h, exec_eq, State.resetStep, State.clearGroup]

/-- Every step answers a next state: the clock edge on what the environment drives. -/
theorem step_eq (s : State) :
    step s = .next ((s.afterEdge.setGroup (edgeGroup s.drivenPins s.acc s.cnt).1
      (edgeGroup s.drivenPins s.acc s.cnt).2).emit (edgeResult s.drivenPins s.acc s.cnt)) := by
  simp [step, clockEdge_eq]

/-- A run of no steps. -/
theorem run_zero (s : State) : core.run 0 s = .next s := rfl

/-- A run goes on from the state its first step leaves. -/
theorem run_succ (n : Nat) (s t : State) (h : step s = .next t) : core.run (n + 1) s = core.run n t := by
  have h' : core.step s = .next t := h
  simp only [Host.Core.run, h']

end Sys2Proof.Machine
end

