-- ==== Sys2Proof/Laws/Run.lean ====
section
/-! SUPPORT. A run over a list of driven pins, packaged once: the registers it leaves and the results it adds, as
functions of the registers it starts from. -/

namespace Sys2Proof.Machine

/-- The registers after a list of clock edges. -/
def groupRun : List InPins → Word × Lane → Word × Lane
  | [], g => g
  | p :: ps, g => groupRun ps (edgeGroup p g.1 g.2)

/-- The results of a list of clock edges. -/
def resultsRun : List InPins → Word × Lane → List Result
  | [], _ => []
  | p :: ps, g => edgeResult p g.1 g.2 :: resultsRun ps (edgeGroup p g.1 g.2)

/-- A run as long as the pins `xs` in hand uses them up and nothing else. -/
theorem run_pins (xs ys : List InPins) (s : State) (h : s.pending = xs ++ ys) :
    core.run xs.length s = .next
      ⟨⟨(groupRun xs (s.acc, s.cnt)).1, (groupRun xs (s.acc, s.cnt)).2⟩, ys,
        s.results ++ resultsRun xs (s.acc, s.cnt)⟩ := by
  induction xs generalizing s with
  | nil =>
    obtain ⟨⟨a, n⟩, p, r⟩ := s
    simp only [List.nil_append] at h
    subst h
    simp [groupRun, resultsRun, run_zero]
  | cons p ps ih =>
    obtain ⟨⟨a, n⟩, q, r⟩ := s
    simp only [List.cons_append] at h
    subst h
    rw [List.length_cons, run_succ _ _ _ (step_eq _), ih]
    · simp [State.drivenPins, groupRun, resultsRun]
    · simp

theorem resultsRun_length (xs : List InPins) (g : Word × Lane) : (resultsRun xs g).length = xs.length := by
  induction xs generalizing g with
  | nil => rfl
  | cons p ps ih => simp [resultsRun, ih]

theorem groupRun_append (xs ys : List InPins) (g : Word × Lane) :
    groupRun (xs ++ ys) g = groupRun ys (groupRun xs g) := by
  induction xs generalizing g with
  | nil => rfl
  | cons p ps ih => simp [groupRun, ih]

theorem resultsRun_append (xs ys : List InPins) (g : Word × Lane) :
    resultsRun (xs ++ ys) g = resultsRun xs g ++ resultsRun ys (groupRun xs g) := by
  induction xs generalizing g with
  | nil => rfl
  | cons p ps ih => simp [resultsRun, groupRun, ih]

/-- What the run of `ps` from the registers `g` leaves and answers. -/
theorem Registers.run_eq (g : Registers) (ps : List InPins) :
    g.run ps = .next ⟨⟨(groupRun ps (g.acc, g.cnt)).1, (groupRun ps (g.acc, g.cnt)).2⟩, [],
      resultsRun ps (g.acc, g.cnt)⟩ :=
  run_pins ps [] { toRegisters := g, pending := ps, results := [] } (List.append_nil ps).symm

end Sys2Proof.Machine
end

