-- ==== Sys2Proof/Laws/Wires.lean ====
section
/-! SUPPORT. The bits of a permuted word, from the loop that permutes it. -/

namespace Sys2Proof.Machine

theorem setBit_getLsbD (e : Word) (j k : Nat) (v : Bool) (hj : j < 32) :
    (setBit e j v).getLsbD k = if k = j then v else e.getLsbD k := by
  cases v <;> by_cases hk : k = j <;> by_cases h32 : k < 32 <;>
    simp_all [setBit, BitVec.getLsbD_of_ge] <;> omega

/-- After the loop over `src`, the bit at `j` is the source bit that was moved there, or the old bit. -/
theorem moveBits_getLsbD (dest back : Nat → Nat) (w : Word) (j : Nat) (src : List Nat)
    (hlt : ∀ i ∈ src, dest i < 32) (hback : ∀ i ∈ src, dest i = j ↔ i = back j) (e : Word) :
    (moveBits dest w src e).getLsbD j = if back j ∈ src then w.getLsbD (back j) else e.getLsbD j := by
  induction src generalizing e with
  | nil => simp [moveBits]
  | cons i src ih =>
    have hi := hback i (by simp)
    have step : moveBits dest w (i :: src) e = moveBits dest w src (setBit e (dest i) (w.getLsbD i)) := rfl
    rw [step, ih (fun k hk => hlt k (by simp [hk])) (fun k hk => hback k (by simp [hk])),
      setBit_getLsbD _ _ _ _ (hlt i (by simp))]
    by_cases hm : back j ∈ src
    · simp [hm]
    · by_cases hd : dest i = j
      · obtain rfl := hi.mp hd
        simp [hm, hd]
      · have : back j ≠ i := fun h => hd (hi.mpr h.symm)
        simp [hm, Ne.symm hd, this]

/-- The bit that reaches `j` when `back` undoes `dest` on 0..31. -/
theorem permute_getLsbD (dest back : Nat → Nat) (w : Word) (j : Nat) (hj : back j < 32)
    (hlt : ∀ i < 32, dest i < 32) (hback : ∀ i < 32, dest i = j ↔ i = back j) :
    (permute dest w).getLsbD j = w.getLsbD (back j) := by
  rw [permute, moveBits_getLsbD dest back w j _ (fun i hi => hlt i (List.mem_range.mp hi))
    (fun i hi => hback i (List.mem_range.mp hi))]
  simp [hj]

/-- `fwd(w)[j] = w[8*(j mod 4) + (j div 4)]`: the loop, read from the output side. -/
theorem fwd_getLsbD_out (w : Word) (j : Nat) (hj : j < 32) :
    (fwd w).getLsbD j = w.getLsbD (invIndex j) :=
  permute_getLsbD fwdIndex invIndex w j (by unfold invIndex; omega)
    (fun i hi => by unfold fwdIndex; omega) (fun i hi => by unfold fwdIndex invIndex; omega)

/-- `inv(e)[i] = e[4*(i mod 8) + (i div 8)]`: the loop, read from the output side. -/
theorem inv_getLsbD_out (e : Word) (i : Nat) (hi : i < 32) :
    (inv e).getLsbD i = e.getLsbD (fwdIndex i) :=
  permute_getLsbD invIndex fwdIndex e i (by unfold fwdIndex; omega)
    (fun j hj => by unfold invIndex; omega) (fun j hj => by unfold fwdIndex invIndex; omega)

end Sys2Proof.Machine
end

