-- ==== Sys2Proof/Tests/Slice0.lean ====
section
/-! SUPPORT. Small checks. The expected values are those of spec/95_test_vectors.md (its section is named at each
group) or words written out by hand from spec/30_encoding.md. The theorems named `witness_…` show that the hypotheses of an
obligation, clause by clause, are met by something. -/

namespace Sys2Proof.Tests

open Sys2Proof Sys2Proof.Machine

/-- A state with these registers and nothing else. -/
def st (a : Word) (n : Lane) : State := ⟨⟨a, n⟩, [], []⟩

/-- A state in which the environment is about to drive `ps`. -/
def driving (a : Word) (n : Lane) (ps : List InPins) : State := ⟨⟨a, n⟩, ps, []⟩

/-- The next state, where there is one. -/
def nextOf : Host.Outcome State Fault Refusal → Option State
  | .next s => some s
  | .fault _ => none
  | .refused _ => none

/-- The registers and the results of the outcome of a step. -/
def seen (o : Host.Outcome State Fault Refusal) : Option (Word × Lane × List Result) :=
  (nextOf o).map (fun s => (s.acc, s.cnt, s.results))

/-- One command from a state with these registers. -/
def one (a : Word) (n : Lane) (i : Instr) : Option (Word × Lane × List Result) := seen (exec i (st a n))

/-- The command words of a statement or a line, where it is accepted. -/
def okOf {α : Type} : Except Asm.Error α → Option α
  | .ok x => some x
  | .error _ => none

/-- The reason it is not. -/
def errorOf {α : Type} : Except Asm.Error α → Option Asm.Error
  | .ok _ => none
  | .error e => some e

/-! ## WellFormed: what each check refuses -/

theorem test_wf_reserved_refused :
    Instr.wellFormed .reservedD = false ∧ Instr.wellFormed .reservedE = false ∧
    Instr.wellFormed .reservedF = false := by decide

theorem test_wf_operations_accepted : Instr.wellFormed (.push 0xFF#8) = true ∧ Instr.wellFormed .encf = true := by
  decide

theorem test_wf_asm_byte_refused :
    Asm.wellFormed (.push 256) = false ∧ Asm.wellFormed (.push (-1)) = false ∧
    Asm.wellFormed (.encb 256) = false ∧ Asm.wellFormed (.push 255) = true := by decide

theorem test_wf_asm_word_refused :
    Asm.wellFormed (.unpack 0x100000000) = false ∧ Asm.wellFormed (.fwd (-1)) = false ∧
    Asm.wellFormed (.inv 0x100000000) = false ∧ Asm.wellFormed (.decw 0x100000000) = false ∧
    Asm.wellFormed (.fwd 0xFFFFFFFF) = true := by decide

theorem test_wf_asm_select_refused :
    Asm.wellFormed (.lane 4 0) = false ∧ Asm.wellFormed (.lane 3 0x100000000) = false ∧
    Asm.wellFormed (.lane 3 0xFFFFFFFF) = true := by decide

theorem test_wf_asm_raw_word_refused :
    Asm.wellFormed (.rawWord 0x1000000000) = false ∧ Asm.wellFormed (.rawWord 0xFFFFFFFFF) = true := by decide

theorem test_wf_asm_lists_refused :
    Asm.wellFormed (.packText [65, 256]) = false ∧ Asm.wellFormed (.encodeText [256]) = false ∧
    Asm.wellFormed (.unpacks [0, 0x100000000]) = false ∧ Asm.wellFormed (.decodeWords [-1]) = false ∧
    Asm.wellFormed (.laneAt 0#2 0x100000000) = false := by decide

/-! ## Decoding: words written out bit by bit from R61, R62, R63 (fields op, then data) -/

theorem test_decode_nop : decode 0b0000_00000000000000000000000000000000#36 = .nop := by decide
theorem test_decode_push : decode 0b0001_000000000000000000000000_01000001#36 = .push 0x41#8 := by decide
theorem test_decode_push_ignores : decode 0b0001_111111111111111111111111_01000001#36 = .push 0x41#8 := by decide
theorem test_decode_flush : decode 0b0010_00000000000000000000000000000000#36 = .flush := by decide
theorem test_decode_unpack : decode 0b0011_01000100_01000101_01010010_01000110#36 = .unpack 0x44455246#32 := by decide
theorem test_decode_lane1 : decode 0b01_01_01000100_01000101_01010010_01000110#36 = .lane 1#2 0x44455246#32 := by
  decide
theorem test_decode_lane2 : decode 0b01_10_01000100_01000101_01010010_01000110#36 = .lane 2#2 0x44455246#32 := by
  decide
theorem test_decode_fwd : decode 0b1000_01000100_01000101_01010010_01000110#36 = .fwd 0x44455246#32 := by decide
theorem test_decode_inv : decode 0b1001_00001111_00000010_00001101_00110100#36 = .inv 0x0F020D34#32 := by decide
theorem test_decode_encb : decode 0b1010_000000000000000000000000_01000001#36 = .encb 0x41#8 := by decide
theorem test_decode_encf : decode 0b1011_00000000000000000000000000000001#36 = .encf := by decide
theorem test_decode_decw : decode 0b1100_00001111_00000010_00001101_00110100#36 = .decw 0x0F020D34#32 := by decide
theorem test_decode_reserved :
    decode 0b1101_00000000000000000000000000000000#36 = .reservedD ∧
    decode 0b1110_00000000000000000000000000000000#36 = .reservedE ∧
    decode 0b1111_11011110101011011011111011101111#36 = .reservedF := by decide

/-- The numbers of 95_test_vectors.md section 2.3, and the least number that is no command word. -/
theorem test_decode_numbers :
    decodeTableWord 36 4294967361 = some (.push 0x41#8) ∧ decodeTableWord 36 51791400244 = some (.decw 0x0F020D34#32) ∧
    decodeTableWord 40 (2 ^ 36) = none := by decide

/-- R68's canonical words, as numbers (95_test_vectors.md section 2.3). -/
theorem test_encode :
    encode (.push 0x41#8) = 0x100000041#36 ∧ encode .flush = 0x200000000#36 ∧
    encode (.lane 3#2 0x44455246#32) = 0x744455246#36 ∧ encode (.decw 0x0F020D34#32) = 0xC0F020D34#36 := by decide

/-! ## One command, one step (95_test_vectors.md sections 2.1 to 2.4, PG4, PG6) -/

theorem test_nop : one 0x41#32 1#2 .nop = some (0x41#32, 1#2, [.silent]) := by decide
theorem test_push_second : one 0x41#32 1#2 (.push 0x42#8) = some (0x4241#32, 2#2, [.silent]) := by decide
theorem test_push_fourth : one 0x180FF#32 3#2 (.push 0x7F#8) = some (0#32, 0#2, [.word 0x7F0180FF#32]) := by decide
theorem test_flush_zero_byte : one 0#32 1#2 .flush = some (0#32, 0#2, [.word 0#32]) := by decide
theorem test_flush_nothing : one 0#32 0#2 .flush = some (0#32, 0#2, [.silent]) := by decide
theorem test_unpack_skips : one 0x41#32 1#2 (.unpack 0x01000100#32) =
    some (0x41#32, 1#2, [.lanes 0b1010#4 0x01000100#32]) := by decide
theorem test_unpack_bytes : (Result.lanes 0b0101#4 0x00620061#32).bytes = [0x61#8, 0x62#8] := by decide
theorem test_lane : one 0#32 0#2 (.lane 1#2 0x44455246#32) = some (0#32, 0#2, [.lanes 0b0001#4 0x52#32]) := by decide
theorem test_lane_zero_byte : one 0#32 0#2 (.lane 3#2 0x41#32) = some (0#32, 0#2, [.lanes 0b0001#4 0#32]) := by decide
theorem test_fwd : one 0#32 0#2 (.fwd 0x44455246#32) = some (0#32, 0#2, [.word 0x0F020D34#32]) := by decide
theorem test_fwd_asymmetric : fwd 0x12345678#32 = 0x035F16A0#32 := by decide
theorem test_inv : one 0x41#32 1#2 (.inv 0x0F020D34#32) = some (0x41#32, 1#2, [.word 0x44455246#32]) := by decide
theorem test_inv_not_fwd : inv 0x00000002#32 = 0x00000100#32 := by decide
theorem test_encb_waits : one 0#32 0#2 (.encb 0x41#8) = some (0x41#32, 1#2, [.silent]) := by decide
theorem test_encb_fourth : one 0x455246#32 3#2 (.encb 0x44#8) = some (0#32, 0#2, [.word 0x0F020D34#32]) := by decide
theorem test_encf : one 0x6F6F66#32 3#2 .encf = some (0#32, 0#2, [.word 0x07706776#32]) := by decide
theorem test_encf_nothing : one 0#32 0#2 .encf = some (0#32, 0#2, [.silent]) := by decide
theorem test_decw : one 0x66#32 1#2 (.decw 0x01000001#32) = some (0x66#32, 1#2, [.lanes 0b0001#4 0x41#32]) := by
  decide
theorem test_reservedD : one 0x6F66#32 2#2 .reservedD = some (0x6F66#32, 2#2, [.illegalCommand 0xD#4]) := by decide
theorem test_reservedE : one 0#32 0#2 .reservedE = some (0#32, 0#2, [.illegalCommand 0xE#4]) := by decide
theorem test_reservedF : one 0x6F6F66#32 3#2 .reservedF = some (0x6F6F66#32, 3#2, [.illegalCommand 0xF#4]) := by
  decide

/-! ## The clock edge: PG9, reset beats the command, an idle edge is a NOP -/

theorem test_reset_beats_command :
    seen (step (driving 0x4241#32 2#2 [⟨true, true, 0xB00000000#36⟩])) = some (0#32, 0#2, [.silent]) := by decide
theorem test_reset_beats_fault :
    seen (step (driving 0x4241#32 2#2 [⟨true, true, 0xF00000000#36⟩])) = some (0#32, 0#2, [.silent]) := by decide
theorem test_idle_edge :
    seen (step (driving 0x43#32 1#2 [⟨false, false, 0xB00000000#36⟩])) = some (0x43#32, 1#2, [.silent]) := by decide
theorem test_step_from_reset :
    seen (step (State.reset.withFetchWord 36 0xA00000041)) = some (0x41#32, 1#2, [.silent]) := by decide
theorem test_present_too_wide : State.reset.withFetchWord 40 (2 ^ 36) = State.reset := by decide
theorem test_err_pin :
    (nextOf (step (State.reset.withFetchWord 36 0xD12345678))).map State.outPins =
      some ⟨false, 0#32, 0#4, 0#32, true⟩ := by decide

/-! ## The functions (95_test_vectors.md sections 1.1, 1.2, 2.1) -/

theorem test_pack_tacocat :
    pack [0x74#8, 0x61#8, 0x63#8, 0x6F#8, 0x63#8, 0x61#8, 0x74#8] = [0x6F636174#32, 0x00746163#32] := by decide
theorem test_encode_smile : encodeText [0x20#8, 0x3A#8, 0x5E#8, 0x29#8] = [79094888#32] := by decide
theorem test_decode_nul : decodeWords [89129025#32] = [0x61#8, 0x62#8] := by decide

/-! ## The netlist: the same two vectors through the sub-blocks -/

theorem test_blocks_encb : Blocks.coreOut ⟨false, true, 0xA00000044#36⟩ 0x455246#32 3#2 =
    ⟨true, 0x0F020D34#32, 0#4, 0#32, false⟩ := by decide
theorem test_blocks_decw : Blocks.coreOut ⟨false, true, 0xC05500041#36⟩ 0#32 0#2 =
    ⟨false, 0#32, 0b0101#4, 0x00620061#32, false⟩ := by decide

/-! ## Assembler lines (R68, R69) -/

theorem test_asm_char :
    okOf (Asm.assembleLine ['P', 'U', 'S', 'H', ' ', '\'', 'A', '\'', ' ', ';', ' ', 'x']) = some [0x100000041#36] := by decide
theorem test_asm_lane :
    okOf (Asm.assembleLine ['L', 'A', 'N', 'E', ' ', '2', ',', ' ', '0', 'x', '4', '1']) = some [0x600000041#36] := by decide
theorem test_asm_raw :
    okOf (Asm.assembleLine ['.', 'w', 'o', 'r', 'd', ' ', '0', 'x', 'D', '_', '0', '0', '0', '0', '0', '0', '0', '0']) =
      some [0xD00000000#36] := by decide
theorem test_asm_pack_escapes :
    okOf (Asm.assembleLine ['P', 'A', 'C', 'K', ' ', '"', 'a', '\\', '0', '\\', 'x', 'F', 'f', '"']) =
      some [0x100000061#36, 0x100000000#36, 0x1000000FF#36, 0x200000000#36] := by decide
theorem test_asm_decode_list :
    okOf (Asm.assembleLine ['D', 'E', 'C', 'O', 'D', 'E', ' ', '1', ',', '2']) =
      some [0xC00000001#36, 0xC00000002#36] := by decide
theorem test_asm_range_refused :
    errorOf (Asm.assembleLine ['P', 'U', 'S', 'H', ' ', '2', '5', '6']) = some .operandRange := by decide
theorem test_asm_form_refused :
    errorOf (Asm.assembleLine ['p', 'u', 's', 'h', ' ', '1']) = some .lineForm := by decide

/-! ## Witnesses: the hypotheses of the obligations are met -/

/-- A state that meets the invariant with the last lane next, and steps. -/
theorem witness_EveryStepKeepsLaneInvariant :
    (driving 0x00FFFFFF#32 3#2 [.present 0x1000000FF#36]).Inv ∧
    nextOf (step (driving 0x00FFFFFF#32 3#2 [.present 0x1000000FF#36])) = some ⟨⟨0#32, 0#2⟩, [], [.word 0xFFFFFFFF#32]⟩ := by
  decide

/-- Both ends of `cnt`, and a lane other than `cnt`. -/
theorem witness_InvariantMakesOrALaneWrite :
    (st 0#32 0#2).Inv ∧ (st 0#32 0#2).cnt = 0#2 ∧ (st 0x00FFFFFF#32 3#2).Inv ∧ (0#2 : Lane) ≠ (st 0x00FFFFFF#32 3#2).cnt := by
  decide

theorem witness_ResetClearsBothRegisters : (InPins.reset).rst = true := by decide

/-- With a reserved code on the port. -/
theorem witness_ResetStepClearsAndIdles :
    (driving 0x4241#32 2#2 [⟨true, true, 0xF00000000#36⟩]).pending = (⟨true, true, 0xF00000000#36⟩ : InPins) :: [] ∧
    (⟨true, true, 0xF00000000#36⟩ : InPins).rst = true := by decide

/-- Something driven, nothing driven, and the greatest command word. -/
theorem witness_StepResetsRunsOrIdles :
    (driving 0#32 0#2 [.reset]).pending = InPins.reset :: [] ∧ State.reset.pending = [] ∧ 0xFFFFFFFFF < 2 ^ 36 := by
  decide

/-- Two states with the same registers and the same pins at this edge, but other results and other pins later. -/
theorem witness_StepDependsOnRegistersAndPinsOnly :
    let s : State := driving 0x41#32 1#2 [.present 0xA00000042#36]
    let u : State := ⟨⟨0x41#32, 1#2⟩, [.present 0xA00000042#36, .reset], [.illegalCommand 0xD#4]⟩
    s.pending ≠ u.pending ∧ s.acc = u.acc ∧ s.cnt = u.cnt ∧ s.drivenPins = u.drivenPins := by decide

/-- A step with each kind of output, and with none. -/
theorem witness_OutputPinsAreExclusiveAndIdleZero :
    ((nextOf (step (driving 0#32 0#2 [.present 0x800000000#36]))).map (fun t => t.outPins.wValid)) = some true ∧
    ((nextOf (step (driving 0#32 0#2 [.present 0x400000000#36]))).map (fun t => t.outPins.bValid)) = some 1#4 ∧
    ((nextOf (step (driving 0#32 0#2 [.present 0xF00000000#36]))).map (fun t => t.outPins.err)) = some true ∧
    ((nextOf (step (driving 0#32 0#2 []))).map State.outPins) = some ⟨false, 0#32, 0#4, 0#32, false⟩ := by decide

/-- A command that emits a word and one that outputs a byte lane. -/
theorem witness_WhichCommandsEmitWordsOrBytes :
    ((nextOf (exec .flush (st 0#32 1#2))).map (fun t => t.outPins.wValid)) = some true ∧
    ((nextOf (exec (.decw 1#32) (st 0#32 1#2))).map (fun t => t.outPins.bValid)) = some 1#4 := by decide

theorem witness_OtherCommandsNeitherReadNorWriteGroup :
    Instr.leavesGroup .nop = true ∧ Instr.leavesGroup (.decw 0#32) = true ∧ Instr.leavesGroup .reservedF = true := by decide

theorem witness_LaneAndPlaceAreInverse : (0#2 : Lane) ≠ 3#2 := by decide

/-- Both branches of PUSH and ENCB, at the ends of each. -/
theorem witness_PushTakesOneByte :
    (st 0#32 0#2).cnt ≠ 3#2 ∧ (st 0#32 2#2).cnt ≠ 3#2 ∧ (st 0#32 3#2).cnt = 3#2 := by decide

theorem witness_EncbTakesOneByte :
    (st 0#32 0#2).cnt ≠ 3#2 ∧ (st 0#32 2#2).cnt ≠ 3#2 ∧ (st 0#32 3#2).cnt = 3#2 := by decide

/-- Both branches of FLUSH and ENCF, at the ends of each. -/
theorem witness_FlushEndsText :
    (st 0#32 1#2).cnt ≠ 0#2 ∧ (st 0#32 3#2).cnt ≠ 0#2 ∧ (st 0#32 0#2).cnt = 0#2 := by decide

theorem witness_EncfEndsText :
    (st 0#32 1#2).cnt ≠ 0#2 ∧ (st 0#32 3#2).cnt ≠ 0#2 ∧ (st 0#32 0#2).cnt = 0#2 := by decide

/-- The ends of the index ranges of the statements about the permutations. -/
theorem witness_index_ranges : (0 < 32 ∧ 31 < 32) ∧ (0 < 8 ∧ 7 < 8) ∧ (0 < 31 ∧ 30 < 31) := by decide

/-- Both permutations are in the list, and a cycle is. -/
theorem witness_PermutationsIgnoreContent : fwd ∈ [fwd, inv] ∧ inv ∈ [fwd, inv] := ⟨by simp, by simp⟩

theorem witness_ForwardCyclesAreThoseListed : [0] ∈ fwdCycles ∧ [15, 29, 23, 30, 27] ∈ fwdCycles := by decide

/-- An entry of the permutation matrix that is set. -/
theorem witness_PermutationMatrixAndOrder : permMatrix 24 6 = true ∧ permMatrix 31 31 = true := by decide

/-- Words on both sides of the bound, and a 7-bit text with its encoded word. -/
theorem witness_SevenBitTextEncodesBelow2Pow28 :
    (fwd 0x7F7F7F7F#32).toNat < 2 ^ 28 ∧ ¬ (fwd 0x80000000#32).toNat < 2 ^ 28 ∧
    Config.ascii [0x7F#8] = true ∧ 0x01111111#32 ∈ encodeText [0x7F#8] := by decide

theorem witness_NopDoesNothing : (⟨false, false, 0xF00000000#36⟩ : InPins).rst = false ∧
    (⟨false, false, 0xF00000000#36⟩ : InPins).cmdValid = false := by decide

theorem witness_LeavingCommandDecidesPermutation :
    let s := driving 0#32 0#2 (presentAll [.encb 0x46#8, .push 0x52#8, .encb 0x45#8, .push 0x44#8] ++ [.reset])
    s.AtTextStart ∧ s.pending = presentAll [if true then .encb 0x46#8 else .push 0x46#8,
      if false then .encb 0x52#8 else .push 0x52#8, if true then .encb 0x45#8 else .push 0x45#8,
      if false then .encb 0x44#8 else .push 0x44#8] ++ [.reset] := by decide

theorem witness_ReservedCodesTakeIllegalCommand :
    (Instr.reservedF, (0xF#4 : OpCode)) ∈
      [(Instr.reservedD, (0xD#4 : OpCode)), (Instr.reservedE, 0xE#4), (Instr.reservedF, 0xF#4)] := by decide

/-- A step that raises `err`: the least reserved code, presented without reset. -/
theorem witness_ErrExactlyOnReservedCodes :
    ((nextOf (step (driving 0#32 0#2 [.present 0xD00000000#36]))).map (fun t => t.outPins.err)) = some true ∧
    ((nextOf (step (driving 0#32 0#2 [.present 0xCFFFFFFFF#36]))).map (fun t => t.outPins.err)) = some false := by decide

theorem witness_FaultRecordIsNeverCleared :
    ({ State.reset with results := [.illegalCommand 0xD#4] } : State).faultRecorded = true := by decide

theorem witness_FaultingCommandActsAsNop : Instr.reservedE ∈ [Instr.reservedD, .reservedE, .reservedF] := by decide

/-- Word 0 and word 1 of a text of five bytes exist. -/
theorem witness_PackHoldsTextLaneByLane :
    0 < (pack [1#8, 2#8, 3#8, 4#8, 5#8]).length ∧ 1 < (pack [1#8, 2#8, 3#8, 4#8, 5#8]).length := by decide

/-- The empty text and a text of five bytes, ready to run, with more to drive after it. -/
theorem witness_PackCommandsEmitPack :
    (let s := driving 0#32 0#2 (presentAll (packCommands []) ++ [])
     s.AtTextStart ∧ s.pending = presentAll (packCommands []) ++ []) ∧
    (let s := driving 0#32 0#2 (presentAll (packCommands [1#8, 2#8, 3#8, 4#8, 0#8]) ++ [.idle])
     s.AtTextStart ∧ s.pending = presentAll (packCommands [1#8, 2#8, 3#8, 4#8, 0#8]) ++ [.idle]) := by decide

theorem witness_UnendedTextWaitsInGroup :
    let s := driving 0#32 0#2 (presentAll ([1#8, 2#8, 3#8].map Instr.push) ++ [])
    s.AtTextStart ∧ s.pending = presentAll ([1#8, 2#8, 3#8].map Instr.push) ++ [] := by decide

theorem witness_EncodeCommandsEmitEncode :
    let s := driving 0#32 0#2 (presentAll (encodeCommands [0xFF#8, 0#8]) ++ [.idle])
    s.AtTextStart ∧ s.pending = presentAll (encodeCommands [0xFF#8, 0#8]) ++ [.idle] := by decide

theorem witness_UnpackCommandsOutputUnpack :
    (driving 0x41#32 1#2 (presentAll (unpackCommands [0#32, 0x620061#32]) ++ [.idle])).pending =
      presentAll (unpackCommands [0#32, 0x620061#32]) ++ [.idle] := by decide

theorem witness_DecodeCommandsOutputDecode :
    (driving 0x41#32 1#2 (presentAll (decodeCommands [0x05500041#32]) ++ [.idle])).pending =
      presentAll (decodeCommands [0x05500041#32]) ++ [.idle] := by decide

/-- A text without a zero byte and one with. -/
theorem witness_PackThenUnpackDropsZeroBytes :
    Config.nulFree [0x61#8, 0xFF#8] = true ∧ Config.nulFree [0x61#8, 0#8] = false := by decide

theorem witness_EncodeThenDecodeRoundTrip :
    State.reset.AtTextStart ∧ State.reset.faultRecorded = false ∧ Config.nulFree [0x41#8] = true := by decide

theorem witness_PureCommandsMayBeInterleaved :
    Instr.leavesGroup (.decw 0x01000001#32) = true ∧ Instr.leavesGroup .reservedD = true := by decide

/-- A code of each list at its ends. -/
theorem witness_EncodeOfDecodeClearsIgnoredBits :
    (0xF#4 : OpCode) ∈ [0x0#4, 0x2#4, 0xB#4, 0xD#4, 0xE#4, 0xF#4] ∧ (0xA#4 : OpCode) ∈ [0x1#4, 0xA#4] ∧
    (0xC#4 : OpCode) ∈ [0x3#4, 0x4#4, 0x5#4, 0x6#4, 0x7#4, 0x8#4, 0x9#4, 0xC#4] := by decide

theorem witness_NumbersWiderThanCommandAreRefused :
    decodeTableWord 36 (2 ^ 36) = none ∧ (0xFFFFFFFFF : Nat) = (0xFFFFFFFFF#36 : Cmd).toNat := by decide

/-- A statement the assembler accepts and one it rejects. -/
theorem witness_AssemblerAcceptsExactlyWhatFits :
    Asm.wellFormed (.lane 3 0xFFFFFFFF) = true ∧ Asm.wellFormed (.lane 4 0) = false := by decide

/-- Pins to run and pins to keep, from a state in the middle of a group. -/
theorem witness_RegistersAloneCarryARun :
    (driving 0x41#32 1#2 ([.present 0xB00000000#36] ++ [.reset])).pending =
      [.present 0xB00000000#36] ++ [.reset] := by decide

/-- A text without a zero byte, and one that is not a 7-bit text. -/
theorem witness_EncodeIsOntoOnlyWithEveryByte :
    Config.nulFree [0xFF#8] = true ∧ Config.ascii [0x00#8] = true ∧ Config.ascii [0xFF#8] = false := by decide

/-- `.word` writes a reserved code's word and a word with ignored bits set as they stand (R68). -/
theorem test_asm_raw_word_unchanged :
    okOf (Asm.assemble (.rawWord 0xDFFFFFFFF)) = some [0xDFFFFFFFF#36] ∧
    okOf (Asm.assemble (.rawWord 0x2FFFFFFFF)) = some [0x2FFFFFFFF#36] := by decide

/-- The model's choice of notes/assumptions/14.md: no blank is needed before a literal. -/
theorem test_asm_no_blank_before_literal :
    okOf (Asm.assembleLine ['P', 'U', 'S', 'H', '\'', 'A', '\'']) = some [0x100000041#36] := by decide

end Sys2Proof.Tests
end

section
/-! The lanes of a word and of a placed byte (40_packer.md R90, R91), and the invariant of the group (10_state.md R22)
in terms of single bits. -/

namespace Sys2Proof.Machine

/-! ## Lanes under OR and after a placement -/

theorem lane_or (v w : Word) (k : Lane) : lane (v ||| w) k = lane v k ||| lane w k := by
  simp [lane, BitVec.ushiftRight_or_distrib, BitVec.setWidth_or]

/-- A placed byte is read back from its own lane. -/
@[simp] theorem lane_place_same (b : Byte) (n : Lane) : lane (place b n) n = b := by
  apply BitVec.eq_of_getLsbD_eq
  intro i hi
  simp [-BitVec.getLsbD_eq_getElem, lane_getLsbD, place_getLsbD, hi]

/-- A placed byte leaves every other lane zero. -/
theorem lane_place_of_ne (b : Byte) {k n : Lane} (h : k ≠ n) : lane (place b n) k = 0#8 := by
  apply BitVec.eq_of_getLsbD_eq
  intro i hi
  rw [lane_getLsbD, place_getLsbD, BitVec.getLsbD_zero]
  have hne : k.toNat ≠ n.toNat := fun e => h (BitVec.eq_of_toNat_eq e)
  by_cases hle : laneOffset n ≤ laneOffset k + i
  · have hbit : b.getLsbD (laneOffset k + i - laneOffset n) = false :=
      BitVec.getLsbD_of_ge _ _ (by unfold laneOffset at *; omega)
    simp [hbit]
  · simp [hle]

/-- Above its lane a placed byte has no bit. -/
theorem place_getLsbD_above (b : Byte) (n : Lane) (i : Nat) (h : laneOffset n + 8 ≤ i) :
    (place b n).getLsbD i = false := by
  rw [place_getLsbD, BitVec.getLsbD_of_ge b _ (by omega), Bool.and_false]

/-- Counting a byte of an incomplete group moves the offset up by one lane. -/
theorem laneOffset_add_one {n : Lane} (h : n ≠ 3#2) : laneOffset (n + 1#2) = laneOffset n + 8 := by
  rcases lane_cases n with rfl | rfl | rfl | rfl
  case inr.inr.inr => exact absurd rfl h
  all_goals rfl

/-! ## The invariant R22 of a pair of registers -/

/-- The lanes of `a` at and above `n` are zero: R22 of the registers alone. -/
def UpperLanesZero (a : Word) (n : Lane) : Prop := a >>> laneOffset n = 0#32

theorem State.inv_iff_upperLanesZero (s : State) : s.Inv ↔ UpperLanesZero s.acc s.cnt := Iff.rfl

theorem upperLanesZero_iff_bits (a : Word) (n : Lane) :
    UpperLanesZero a n ↔ ∀ i, laneOffset n ≤ i → a.getLsbD i = false := by
  unfold UpperLanesZero
  constructor
  · intro h i hi
    have hbit := congrArg (fun w => w.getLsbD (i - laneOffset n)) h
    simpa [-BitVec.getLsbD_eq_getElem, Nat.add_sub_cancel' hi] using hbit
  · intro h
    apply BitVec.eq_of_getLsbD_eq
    intro i _
    rw [BitVec.getLsbD_ushiftRight, h _ (Nat.le_add_right ..), BitVec.getLsbD_zero]

theorem upperLanesZero_zero (n : Lane) : UpperLanesZero 0#32 n :=
  (upperLanesZero_iff_bits _ n).mpr fun _ _ => BitVec.getLsbD_zero

/-- Merging a byte that does not complete the group fills lane `n` and leaves the lanes from `n + 1` on zero. -/
theorem UpperLanesZero.or_place {a : Word} {n : Lane} (ha : UpperLanesZero a n) (hn : n ≠ 3#2) (b : Byte) :
    UpperLanesZero (a ||| place b n) (n + 1#2) := by
  rw [upperLanesZero_iff_bits] at ha ⊢
  intro i hi
  rw [laneOffset_add_one hn] at hi
  rw [BitVec.getLsbD_or, ha i (by omega), place_getLsbD_above b n i hi, Bool.or_false]

/-- Lane `n` itself is zero. -/
theorem UpperLanesZero.lane_self {a : Word} {n : Lane} (ha : UpperLanesZero a n) : lane a n = 0#8 := by
  rw [lane, ha, BitVec.setWidth_zero]

/-- Every lane number is at most 3, so bits 31:24 are always zero. -/
theorem UpperLanesZero.extract_top {a : Word} {n : Lane} (ha : UpperLanesZero a n) :
    a.extractLsb' 24 8 = 0#8 := by
  rw [upperLanesZero_iff_bits] at ha
  apply BitVec.eq_of_getLsbD_eq
  intro i _
  have hle := laneOffset_le n
  rw [BitVec.getLsbD_extractLsb', ha _ (by omega), Bool.and_false, BitVec.getLsbD_zero]

theorem UpperLanesZero.eq_zero {a : Word} (ha : UpperLanesZero a 0#2) : a = 0#32 := by
  simpa [UpperLanesZero, laneOffset] using ha

/-! ## Every command, edge and step keeps the invariant -/

theorem groupAfter_keeps_upperLanesZero (i : Instr) {a : Word} {n : Lane} (ha : UpperLanesZero a n) :
    UpperLanesZero (groupAfter i a n).1 (groupAfter i a n).2 := by
  cases i with
  | push b | encb b =>
    by_cases hn : n = 3#2
    · simpa [groupAfter, hn] using upperLanesZero_zero 0#2
    · simpa [groupAfter, hn] using ha.or_place hn b
  | flush | encf => exact upperLanesZero_zero 0#2
  | nop | unpack _ | lane _ _ | fwd _ | inv _ | decw _ | reservedD | reservedE | reservedF => exact ha

theorem edgeGroup_keeps_upperLanesZero (p : InPins) {a : Word} {n : Lane} (ha : UpperLanesZero a n) :
    UpperLanesZero (edgeGroup p a n).1 (edgeGroup p a n).2 := by
  unfold edgeGroup
  split
  · exact upperLanesZero_zero 0#2
  · exact groupAfter_keeps_upperLanesZero p.command ha

/-- Settles O3: a step sets the registers to what the clock edge leaves of them (`step_eq`), and the only edge that
writes a non-zero accumulator, an incomplete PUSH or ENCB, raises `cnt` past the lane it fills. -/
theorem everyStepKeepsLaneInvariant : Obligations.EveryStepKeepsLaneInvariant := by
  intro s s' hs hstep
  rw [step_eq, Host.Outcome.next.injEq] at hstep
  subst hstep
  exact edgeGroup_keeps_upperLanesZero s.drivenPins hs

/-- Settles O4: lane `cnt` is zero before the OR, and the placed byte is zero in every other lane. -/
theorem invariantMakesOrALaneWrite : Obligations.InvariantMakesOrALaneWrite := by
  intro s b hs
  rw [State.inv_iff_upperLanesZero] at hs
  refine ⟨hs.extract_top, fun hcnt => (hcnt ▸ hs).eq_zero, ?_, fun k hk => ?_⟩
  · rw [lane_or, hs.lane_self, lane_place_same, BitVec.zero_or]
  · rw [lane_or, lane_place_of_ne b hk, BitVec.or_zero]

/-- Settles O2: the reset accumulator is zero. -/
theorem resetStateMeetsLaneInvariant : Obligations.ResetStateMeetsLaneInvariant :=
  upperLanesZero_zero State.reset.cnt

end Sys2Proof.Machine
end

section
/-! What decides a step and a run: the registers and the pins, nothing else (10_state.md R24 to R27, R30). -/

namespace Sys2Proof.Machine

theorem clockEdge_of_rst (s : State) {p : InPins} (h : p.rst = true) : clockEdge p s = .next s.resetStep := by
  rw [clockEdge, if_pos h]

/-- Settles O1: an edge with `rst = 1` is a reset step. -/
theorem resetClearsBothRegisters : Obligations.ResetClearsBothRegisters :=
  ⟨rfl, rfl, fun s _ h => ⟨s.resetStep, clockEdge_of_rst s h, rfl, rfl⟩⟩

/-- Settles O7: by `step_eq` a step is an update of the registers and one emitted result. -/
theorem everyStepCompletesWithOneResult : Obligations.EveryStepCompletesWithOneResult := fun s =>
  ⟨_, edgeResult s.drivenPins s.acc s.cnt, step_eq s, rfl, rfl, State.outPins_emit _ _⟩

/-- Settles O8: in `step_eq` the new registers and the result are functions of `acc`, `cnt` and the driven pins. -/
theorem stepDependsOnRegistersAndPinsOnly : Obligations.StepDependsOnRegistersAndPinsOnly := by
  intro s u hacc hcnt hpins
  have hgroup : edgeGroup s.drivenPins s.acc s.cnt = edgeGroup u.drivenPins u.acc u.cnt := by
    rw [hacc, hcnt, hpins]
  have hresult : edgeResult u.drivenPins u.acc u.cnt = edgeResult s.drivenPins s.acc s.cnt := by
    rw [hacc, hcnt, hpins]
  refine ⟨_, _, edgeResult s.drivenPins s.acc s.cnt, step_eq s, step_eq u, ?_, ?_, rfl, rfl, rfl, ?_⟩
  · exact congrArg Prod.fst hgroup
  · exact congrArg Prod.snd hgroup
  · rw [hresult, State.emit_results, State.setGroup_results, State.afterEdge_results]

/-! ## Commands that leave the group alone -/

theorem groupAfter_of_leavesGroup {i : Instr} (h : i.leavesGroup = true) (a : Word) (n : Lane) :
    groupAfter i a n = (a, n) := by
  cases i with
  | push _ | flush | encb _ | encf => exact absurd h Bool.false_ne_true
  | nop | unpack _ | lane _ _ | fwd _ | inv _ | decw _ | reservedD | reservedE | reservedF => rfl

/-- The result of such a command is the one it has at the start of a text. -/
theorem resultOf_of_leavesGroup {i : Instr} (h : i.leavesGroup = true) (a : Word) (n : Lane) :
    resultOf i a n = resultOf i 0#32 0#2 := by
  cases i with
  | push _ | flush | encb _ | encf => exact absurd h Bool.false_ne_true
  | nop | unpack _ | lane _ _ | fwd _ | inv _ | decw _ | reservedD | reservedE | reservedF => rfl

theorem exec_of_leavesGroup {i : Instr} (h : i.leavesGroup = true) (s : State) :
    exec i s = .next (s.emit (resultOf i 0#32 0#2)) := by
  rw [exec_eq, groupAfter_of_leavesGroup h, resultOf_of_leavesGroup h]
  rfl

/-- Settles O11: the one result of the command is its result at the start of a text. -/
theorem otherCommandsNeitherReadNorWriteGroup : Obligations.OtherCommandsNeitherReadNorWriteGroup :=
  fun i h => ⟨resultOf i 0#32 0#2, exec_of_leavesGroup h⟩

/-! ## Runs -/

/-- Settles O59: `run_pins` and `Registers.run_eq` give both runs as the same functions of the registers, and these
functions compose over an append. -/
theorem registersAloneCarryARun : Obligations.RegistersAloneCarryARun := by
  constructor
  · intro s ps qs hpending
    exact ⟨_, _, Registers.run_eq s.toRegisters ps, resultsRun_length .., run_pins ps qs s hpending⟩
  · intro g ps qs
    refine ⟨_, _, _, _, Registers.run_eq g ps, Registers.run_eq _ qs, ?_⟩
    rw [Registers.run_eq, groupRun_append, resultsRun_append]

end Sys2Proof.Machine
end

section
/-! Presenting a command and what one step does with it (20_memory.md R41, 30_encoding.md R64): the decoder gives
back the command of a canonical word, and a step is the clock edge on the pins next in hand. -/

namespace Sys2Proof

/-- The decoder reads every command back from its canonical word (R64, R66). -/
@[simp] theorem decode_encode (i : Instr) : decode (encode i) = i := by
  cases i with
  | push b => exact (decode_append 0x1#4 _).trans (congrArg Instr.push (byteField_append 0x1#4 0#24 b))
  | encb b => exact (decode_append 0xA#4 _).trans (congrArg Instr.encb (byteField_append 0xA#4 0#24 b))
  | lane k w =>
    refine (decode_append (0b01#2 ++ k) w).trans ?_
    rcases Machine.lane_cases k with rfl | rfl | rfl | rfl <;> rfl
  | nop => exact decode_append 0x0#4 0#32
  | flush => exact decode_append 0x2#4 0#32
  | unpack w => exact decode_append 0x3#4 w
  | fwd w => exact decode_append 0x8#4 w
  | inv e => exact decode_append 0x9#4 e
  | encf => exact decode_append 0xB#4 0#32
  | decw e => exact decode_append 0xC#4 e
  | reservedD => exact decode_append 0xD#4 0#32
  | reservedE => exact decode_append 0xE#4 0#32
  | reservedF => exact decode_append 0xF#4 0#32

namespace Machine

@[simp] theorem edgeGroup_present (c : Cmd) (a : Word) (n : Lane) :
    edgeGroup (.present c) a n = groupAfter (decode c) a n := rfl

@[simp] theorem edgeResult_present (c : Cmd) (a : Word) (n : Lane) :
    edgeResult (.present c) a n = resultOf (decode c) a n := rfl

theorem presentAll_cons (i : Instr) (is : List Instr) :
    presentAll (i :: is) = .present (encode i) :: presentAll is := rfl

@[simp] theorem presentAll_length (is : List Instr) : (presentAll is).length = is.length := by
  simp [presentAll]

/-! ## One step, by what is next in hand -/

/-- A step takes the clock edge on the first pins in hand, with these used up. -/
theorem step_of_pending_cons {s : State} {p : InPins} {ps : List InPins} (h : s.pending = p :: ps) :
    step s = clockEdge p (s.setPending ps) := by
  simp [step, State.drivenPins, State.afterEdge, h]

/-- With nothing in hand a step is an idle edge, and nothing is used up. -/
theorem step_of_pending_nil {s : State} (h : s.pending = []) : step s = exec .nop s := by
  have hedge : s.afterEdge = s := by
    rw [State.afterEdge, h, List.tail_nil, ← h]
    rfl
  rw [step, State.drivenPins, h, hedge]
  rfl

/-- The clock edge, one branch for reset, a command and no command (R41). -/
theorem clockEdge_eq_ite (p : InPins) (s : State) :
    clockEdge p s = if p.rst then .next s.resetStep
      else if p.cmdValid then exec (decode p.cmd) s else exec .nop s := by
  rw [clockEdge, InPins.command, apply_ite (exec · s)]

theorem State.withFetchWord_of_lt (s : State) (nbits : Nat) {w : Nat} (h : w < 2 ^ 36) :
    s.withFetchWord nbits w = s.setPending (.present (BitVec.ofNat 36 w) :: s.pending) :=
  if_pos h

/-- The word placed is the very next one to be decoded and executed, in the state it was placed in. -/
theorem step_withFetchWord (s : State) (nbits : Nat) {w : Nat} (h : w < 2 ^ 36) :
    step (s.withFetchWord nbits w) = exec (decode (BitVec.ofNat 36 w)) s := by
  rw [State.withFetchWord_of_lt s nbits h, step_of_pending_cons (State.setPending_pending s _)]
  rfl

/-- Settles O6: `step_of_pending_cons` and `step_of_pending_nil` reduce a step to its clock edge, `step_withFetchWord`
is the placed word, and `decode_encode` gives the command of a canonical one. -/
theorem stepResetsRunsOrIdles : Obligations.StepResetsRunsOrIdles := by
  refine ⟨fun s p ps h => ?_, fun s => step_of_pending_nil, fun s nbits w => step_withFetchWord s nbits,
    fun s nbits i => ?_⟩
  · rw [step_of_pending_cons h, clockEdge_eq_ite]
  · rw [step_withFetchWord s nbits (encode i).isLt, BitVec.ofNat_toNat, BitVec.setWidth_eq, decode_encode]

end Machine
end Sys2Proof
end

section
/-! The output pins of a step (20_memory.md R41, R44, R45): they are those of its one result, and the command decides
the kind of the result. -/

namespace Sys2Proof.Machine

theorem Result.exists_word_of_wValid {r : Result} (h : r.pins.wValid = true) : ∃ v, r = .word v := by
  cases r with
  | word v => exact ⟨v, rfl⟩
  | silent | lanes _ _ | illegalCommand _ => exact absurd h Bool.false_ne_true

theorem Result.exists_lanes_of_bValid {r : Result} (h : r.pins.bValid ≠ 0#4) : ∃ m d, r = .lanes m d := by
  cases r with
  | lanes m d => exact ⟨m, d, rfl⟩
  | silent | word _ | illegalCommand _ => exact absurd rfl h

/-! ## The kind of a command's result -/

/-- Only PUSH, FLUSH, FWD, INV, ENCB and ENCF answer a word (R44). -/
theorem command_of_resultOf_word {i : Instr} {a v : Word} {n : Lane} (h : resultOf i a n = .word v) :
    (∃ b, i = .push b) ∨ i = .flush ∨ (∃ w, i = .fwd w) ∨ (∃ e, i = .inv e) ∨ (∃ b, i = .encb b) ∨ i = .encf := by
  cases i with
  | push _ | flush | fwd _ | inv _ | encb _ | encf => simp
  | nop | unpack _ | lane _ _ | decw _ | reservedD | reservedE | reservedF => cases h

/-- Only UNPACK, LANE and DECW answer byte lanes (R45). -/
theorem command_of_resultOf_lanes {i : Instr} {a d : Word} {n : Lane} {m : LaneMask}
    (h : resultOf i a n = .lanes m d) : (∃ w, i = .unpack w) ∨ (∃ k w, i = .lane k w) ∨ (∃ e, i = .decw e) := by
  cases i with
  | unpack _ | lane _ _ | decw _ => simp
  | push _ | flush | encb _ | encf =>
    simp only [resultOf] at h
    split at h <;> cases h
  | nop | fwd _ | inv _ | reservedD | reservedE | reservedF => cases h

/-- The pins after a command are those of its result. -/
theorem outPins_of_exec {i : Instr} {s t : State} (h : exec i s = .next t) :
    t.outPins = (resultOf i s.acc s.cnt).pins := by
  rw [exec_eq, Host.Outcome.next.injEq] at h
  rw [← h, State.outPins_emit]

/-- Settles O10: the strobe tells the kind of the result, and the kind of the result tells the command. -/
theorem whichCommandsEmitWordsOrBytes : Obligations.WhichCommandsEmitWordsOrBytes := by
  intro i s t hexec
  rw [outPins_of_exec hexec]
  constructor
  · intro h
    obtain ⟨v, hv⟩ := Result.exists_word_of_wValid h
    exact command_of_resultOf_word hv
  · intro h
    obtain ⟨m, d, hmd⟩ := Result.exists_lanes_of_bValid h
    exact command_of_resultOf_lanes hmd

/-! ## Idle data and exclusive strobes -/

/-- A word whose four lanes are zero is zero. -/
theorem eq_zero_of_lanes_eq_zero {w : Word} (h : ∀ k : Lane, lane w k = 0#8) : w = 0#32 := by
  apply BitVec.eq_of_getLsbD_eq
  intro i hi
  have hoff : laneOffset (BitVec.ofNat 2 (i / 8)) + i % 8 = i := by
    rw [laneOffset, BitVec.toNat_ofNat]
    omega
  have hbit := lane_getLsbD w (BitVec.ofNat 2 (i / 8)) (i % 8)
  rw [h, hoff, BitVec.getLsbD_zero, decide_eq_true (Nat.mod_lt i (by decide)), Bool.true_and] at hbit
  rw [← hbit, BitVec.getLsbD_zero]

/-- A mask that drops every lane is the mask of the word 0 (R96). -/
theorem eq_zero_of_nonzeroLanes_eq_zero {w : Word} (h : nonzeroLanes w = 0#4) : w = 0#32 := by
  refine eq_zero_of_lanes_eq_zero fun k => ?_
  have hk := nonzeroLanes_getLsbD w k
  rw [h, BitVec.getLsbD_zero] at hk
  exact bne_eq_false_iff_eq.mp hk.symm

/-- Byte lanes with no lane strobed carry no data: LANE strobes lane 0, UNPACK and DECW strobe what is not zero. -/
theorem resultOf_lanes_zero {i : Instr} {a d : Word} {n : Lane} (h : resultOf i a n = .lanes 0#4 d) : d = 0#32 := by
  obtain ⟨w, rfl⟩ | ⟨k, w, rfl⟩ | ⟨e, rfl⟩ := command_of_resultOf_lanes h
  · obtain ⟨hm, rfl⟩ := Result.lanes.inj h
    exact eq_zero_of_nonzeroLanes_eq_zero hm
  · exact absurd (Result.lanes.inj h).1 (by decide)
  · obtain ⟨hm, rfl⟩ := Result.lanes.inj h
    exact eq_zero_of_nonzeroLanes_eq_zero hm

theorem edgeResult_lanes_zero {p : InPins} {a d : Word} {n : Lane} (h : edgeResult p a n = .lanes 0#4 d) :
    d = 0#32 := by
  unfold edgeResult at h
  split at h
  · cases h
  · exact resultOf_lanes_zero h

/-- The pins after a step are those of its clock edge's result. -/
theorem outPins_of_step {s t : State} (h : step s = .next t) :
    t.outPins = (edgeResult s.drivenPins s.acc s.cnt).pins := by
  rw [step_eq, Host.Outcome.next.injEq] at h
  rw [← h, State.outPins_emit]

/-- Settles O9: the pins are those of one result, which is of one kind; only byte lanes could hold data without a
strobe, and `edgeResult_lanes_zero` says they do not. -/
theorem outputPinsAreExclusiveAndIdleZero : Obligations.OutputPinsAreExclusiveAndIdleZero := by
  intro s t hstep
  rw [outPins_of_step hstep]
  cases hr : edgeResult s.drivenPins s.acc s.cnt with
  | lanes m d =>
    have hidle (hm : m = 0#4) : d = 0#32 := edgeResult_lanes_zero (hr.trans (congrArg (Result.lanes · d) hm))
    exact ⟨fun _ => rfl, hidle, fun h => absurd h Bool.false_ne_true, fun h => absurd h Bool.false_ne_true⟩
  | silent | word _ | illegalCommand _ => simp [Result.pins]

end Sys2Proof.Machine
end

section
/-! Runs with a command put in, and runs of a text that is not ended (20_memory.md R49, R53; 60_exceptions.md R195;
70_reset_and_hazards.md R214). -/

namespace Sys2Proof.Machine

/-! ## A run of presented commands, one at a time -/

theorem groupRun_presentAll_cons (i : Instr) (is : List Instr) (g : Word × Lane) :
    groupRun (presentAll (i :: is)) g = groupRun (presentAll is) (groupAfter i g.1 g.2) := by
  rw [presentAll_cons, groupRun, edgeGroup_present, decode_encode]

theorem resultsRun_presentAll_cons (i : Instr) (is : List Instr) (g : Word × Lane) :
    resultsRun (presentAll (i :: is)) g =
      resultOf i g.1 g.2 :: resultsRun (presentAll is) (groupAfter i g.1 g.2) := by
  rw [presentAll_cons, resultsRun, edgeResult_present, edgeGroup_present, decode_encode]

/-! ## A command that leaves the group alone, anywhere in a run -/

theorem run_setPending (s : State) (ps : List InPins) :
    core.run ps.length (s.setPending ps) = .next
      ⟨⟨(groupRun ps (s.acc, s.cnt)).1, (groupRun ps (s.acc, s.cnt)).2⟩, [],
        s.results ++ resultsRun ps (s.acc, s.cnt)⟩ :=
  run_pins ps [] (s.setPending ps) (List.append_nil ps).symm

theorem groupRun_present_of_leavesGroup {i : Instr} (h : i.leavesGroup = true) (g : Word × Lane) :
    groupRun (presentAll [i]) g = g := by
  rw [groupRun_presentAll_cons, groupAfter_of_leavesGroup h]
  rfl

theorem resultsRun_present_of_leavesGroup {i : Instr} (h : i.leavesGroup = true) (g : Word × Lane) :
    resultsRun (presentAll [i]) g = [resultOf i 0#32 0#2] := by
  rw [resultsRun_presentAll_cons, resultOf_of_leavesGroup h]
  rfl

/-- Settles O47: both runs have the same registers at the insertion point and after it, since the command put in
leaves them as they are. -/
theorem pureCommandsMayBeInterleaved : Obligations.PureCommandsMayBeInterleaved := by
  intro s xs ys i hi
  have hwithout := run_setPending s (xs ++ ys)
  have hwith := run_setPending s (xs ++ presentAll [i] ++ ys)
  simp only [groupRun_append, resultsRun_append, groupRun_present_of_leavesGroup hi,
    resultsRun_present_of_leavesGroup hi] at hwithout hwith
  rw [List.length_append] at hwithout
  have hlen : (xs ++ presentAll [i] ++ ys).length = xs.length + (ys.length + 1) := by
    simp only [List.length_append, presentAll_length, List.length_singleton]
    omega
  rw [hlen] at hwith
  exact ⟨_, _, resultsRun xs (s.acc, s.cnt), resultsRun ys (groupRun xs (s.acc, s.cnt)), resultOf i 0#32 0#2,
    hwithout, hwith, resultsRun_length .., (List.append_assoc ..).symm, by simp only [List.append_assoc], rfl, rfl⟩

/-! ## PUSH of every byte of a text, from its start -/

/-- The pins that bring in a text by PUSH and do not end it. -/
def pushPins (t : List Byte) : List InPins := presentAll (t.map .push)

theorem pushPins_length (t : List Byte) : (pushPins t).length = t.length := by
  rw [pushPins, presentAll_length, List.length_map]

theorem length_cons4_div (a b c d : Byte) (t : List Byte) :
    (a :: b :: c :: d :: t).length / 4 = t.length / 4 + 1 :=
  Nat.add_div_right t.length (Nat.zero_lt_succ 3)

/-- A full group leaves the registers as at the start of a text. -/
theorem groupRun_pushPins_cons4 (a b c d : Byte) (t : List Byte) :
    groupRun (pushPins (a :: b :: c :: d :: t)) (0#32, 0#2) = groupRun (pushPins t) (0#32, 0#2) := by
  simp [pushPins, groupRun_presentAll_cons, groupAfter]

/-- A full group emits its one word. -/
theorem wordsOf_pushPins_cons4 (a b c d : Byte) (t : List Byte) :
    wordsOf (resultsRun (pushPins (a :: b :: c :: d :: t)) (0#32, 0#2)) =
      (0#32 ||| place a 0#2 ||| place b 1#2 ||| place c 2#2 ||| place d 3#2) ::
        wordsOf (resultsRun (pushPins t) (0#32, 0#2)) := by
  simp [pushPins, resultsRun_presentAll_cons, groupAfter, resultOf, wordsOf_cons, Result.word?]

/-- The bytes of the last, partial group wait in the registers. -/
theorem groupRun_pushPins : ∀ t : List Byte,
    groupRun (pushPins t) (0#32, 0#2) = (packedWord t (t.length / 4), BitVec.ofNat 2 t.length)
  | [] => by simp [pushPins, presentAll, groupRun, packedWord, allLanes]
  | [a] => by simp [pushPins, presentAll, groupRun, groupAfter, packedWord, allLanes]
  | [a, b] => by simp [pushPins, presentAll, groupRun, groupAfter, packedWord, allLanes]
  | [a, b, c] => by simp [pushPins, presentAll, groupRun, groupAfter, packedWord, allLanes]
  | a :: b :: c :: d :: t => by
    have hcnt : BitVec.ofNat 2 (a :: b :: c :: d :: t).length = BitVec.ofNat 2 t.length := by
      apply BitVec.eq_of_toNat_eq
      simp only [BitVec.toNat_ofNat, List.length_cons]
      omega
    rw [groupRun_pushPins_cons4, groupRun_pushPins t, length_cons4_div, packedWord_cons4, hcnt]

/-- The words of the full groups have been emitted, and no other. -/
theorem wordsOf_pushPins : ∀ t : List Byte,
    wordsOf (resultsRun (pushPins t) (0#32, 0#2)) = (pack t).take (t.length / 4)
  | [] => rfl
  | [a] => by simp [pushPins, presentAll, resultsRun, resultOf, wordsOf_cons, Result.word?]
  | [a, b] => by simp [pushPins, presentAll, resultsRun, groupAfter, resultOf, wordsOf_cons, Result.word?]
  | [a, b, c] => by simp [pushPins, presentAll, resultsRun, groupAfter, resultOf, wordsOf_cons, Result.word?]
  | a :: b :: c :: d :: t => by
    rw [wordsOf_pushPins_cons4, wordsOf_pushPins t, length_cons4_div, pack_cons4, List.take_succ_cons]

/-- Settles O40: the run of the pushes, group by group. -/
theorem unendedTextWaitsInGroup : Obligations.UnendedTextWaitsInGroup := by
  intro t s ps ⟨hacc, hcnt⟩ hpending
  have hrun := run_pins (pushPins t) ps s hpending
  rw [pushPins_length, hacc, hcnt, groupRun_pushPins] at hrun
  exact ⟨_, _, hrun, rfl, BitVec.toNat_ofNat .., rfl, rfl, wordsOf_pushPins t⟩

end Sys2Proof.Machine
end

section
/-! The netlist of sub-blocks (20_memory.md R46, 40_packer.md R102) against the clock edge: the tables of wires, the
gates of `byte_packer` by its strobes, then the CORE by what is driven and by operation code. -/

namespace Sys2Proof.Machine

/-! ## The transposers: the tables of wires are the permutations (R122, R142) -/

/-- Wires with the same destinations on 0..31 permute alike. -/
theorem permute_congr {f g : Nat → Nat} (h : ∀ i < 32, f i = g i) (w : Word) : permute f w = permute g w := by
  unfold permute moveBits
  refine List.foldl_ext _ _ _ fun e i hi => ?_
  rw [h i (List.mem_range.mp hi)]

theorem permuteByTable_fwdTable (w : Word) : permuteByTable fwdTable w = fwd w := permute_congr (by decide) w

theorem permuteByTable_invTable (w : Word) : permuteByTable invTable w = inv w := permute_congr (by decide) w

/-! ## What is driven at an edge -/

/-- An edge resets, is idle, or executes an operation code in front of an operand field. -/
theorem InPins.reset_or_idle_or_present (p : InPins) :
    p.rst = true ∨ (p.rst = false ∧ p.cmdValid = false) ∨ ∃ (op : OpCode) (w : Word), p = .present (op ++ w) := by
  obtain ⟨rst, cmdValid, c⟩ := p
  cases rst with
  | true => exact .inl rfl
  | false =>
    cases cmdValid with
    | false => exact .inr (.inl ⟨rfl, rfl⟩)
    | true => exact .inr (.inr ⟨opField c, wordField c, congrArg InPins.present (eq_opField_append_wordField c)⟩)

section
variable {p : InPins} (a : Word) (n : Lane)

theorem edgeGroup_of_rst (h : p.rst = true) : edgeGroup p a n = (0#32, 0#2) := by
  rw [edgeGroup, if_pos h]

theorem edgeResult_of_rst (h : p.rst = true) : edgeResult p a n = .silent := by
  rw [edgeResult, if_pos h]

theorem edgeGroup_of_idle (hr : p.rst = false) (hv : p.cmdValid = false) : edgeGroup p a n = (a, n) := by
  simp [edgeGroup, InPins.command, hr, hv, groupAfter]

theorem edgeResult_of_idle (hr : p.rst = false) (hv : p.cmdValid = false) : edgeResult p a n = .silent := by
  simp [edgeResult, InPins.command, hr, hv, resultOf]

end

namespace Blocks

@[simp] theorem transposerOut_eq (w : Word) : transposerOut w = fwd w := permuteByTable_fwdTable w

@[simp] theorem inverseTransposerOut_eq (e : Word) : inverseTransposerOut e = inv e := permuteByTable_invTable e

/-! ## `byte_packer`, by its two strobes -/

section
variable (a : Word) (n : Lane) {i : PackerIn}

theorem packerOut_unpByte (i : PackerIn) : (packerOut a n i).unpByte = lane i.unpWord i.unpSel := laneMux_eq ..

theorem packerOut_of_push (hp : i.push = true) (hf : i.flush = false) :
    (packerOut a n i).wordValid = (n == 3#2) ∧ (packerOut a n i).wordOut = a ||| place i.byteIn n :=
  ⟨by simp [packerOut, hp, hf], merged_of_push a n i hp⟩

theorem packerOut_of_flush (hp : i.push = false) (hf : i.flush = true) :
    (packerOut a n i).wordValid = (n != 0#2) ∧ (packerOut a n i).wordOut = a :=
  ⟨by simp [packerOut, hp, hf], merged_of_idle a n i hp⟩

theorem packerOut_wordValid_of_idle (hp : i.push = false) (hf : i.flush = false) :
    (packerOut a n i).wordValid = false := by
  simp [packerOut, hp, hf]

theorem packerNext_of_push (hp : i.push = true) (hf : i.flush = false) :
    packerNext false a n i = if n = 3#2 then (0#32, 0#2) else (a ||| place i.byteIn n, n + 1#2) := by
  simp [packerNext, hp, hf, merged_of_push]

theorem packerNext_of_flush (rst : Bool) (hf : i.flush = true) : packerNext rst a n i = (0#32, 0#2) := by
  simp [packerNext, hf]

theorem packerNext_of_idle (hp : i.push = false) (hf : i.flush = false) : packerNext false a n i = (a, n) := by
  simp [packerNext, hp, hf]

end

/-! ## The command decoder on an executed command -/

section
variable (op : OpCode) (w a : Word) (n : Lane)

@[simp] theorem opNumber_present : opNumber (.present (op ++ w)) = op.toNat :=
  congrArg BitVec.toNat (opField_append op w)

@[simp] theorem runs_present (ops : List Nat) : runs (.present (op ++ w)) ops = ops.contains op.toNat := by
  rw [runs, opNumber_present]
  rfl

@[simp] theorem wordField_present : wordField (InPins.present (op ++ w)).cmd = w := wordField_append op w

@[simp] theorem selField_present : selField (InPins.present (op ++ w)).cmd = op.extractLsb' 0 2 :=
  selField_append op w

/-- The codes of PUSH and ENCB, which strobe `push` (R93, R161). -/
abbrev TakesByte (op : OpCode) : Prop := op = 0x1#4 ∨ op = 0xA#4

/-- The codes of FLUSH and ENCF, which strobe `flush` (R94, R162). -/
abbrev EndsText (op : OpCode) : Prop := op = 0x2#4 ∨ op = 0xB#4

/-- The codes with neither strobe: `byte_packer` is at most asked for lanes of a word. -/
abbrev HasNoStrobe (op : OpCode) : Prop :=
  op = 0x0#4 ∨ op = 0x3#4 ∨ op = 0x4#4 ∨ op = 0x5#4 ∨ op = 0x6#4 ∨ op = 0x7#4 ∨
  op = 0x8#4 ∨ op = 0x9#4 ∨ op = 0xC#4 ∨ op = 0xD#4 ∨ op = 0xE#4 ∨ op = 0xF#4

theorem takesByte_or_endsText_or_hasNoStrobe : TakesByte op ∨ EndsText op ∨ HasNoStrobe op := by
  revert op
  decide

@[simp] theorem packerIn_unpWord :
    (packerIn (.present (op ++ w))).unpWord = if op.toNat = 0xC then inv w else w := by
  simp [packerIn]

@[simp] theorem packerIn_unpSel : (packerIn (.present (op ++ w))).unpSel = op.extractLsb' 0 2 :=
  selField_present op w

@[simp] theorem packerIn_byteIn (c : Cmd) : (packerIn (.present c)).byteIn = byteField c := rfl

variable {op}

theorem strobes_of_takesByte (h : TakesByte op) :
    (packerIn (.present (op ++ w))).push = true ∧ (packerIn (.present (op ++ w))).flush = false := by
  simp only [packerIn, runs_present]
  revert op
  decide

theorem strobes_of_endsText (h : EndsText op) :
    (packerIn (.present (op ++ w))).push = false ∧ (packerIn (.present (op ++ w))).flush = true := by
  simp only [packerIn, runs_present]
  revert op
  decide

theorem strobes_of_hasNoStrobe (h : HasNoStrobe op) :
    (packerIn (.present (op ++ w))).push = false ∧ (packerIn (.present (op ++ w))).flush = false := by
  simp only [packerIn, runs_present]
  revert op
  decide

/-! ### The registers -/

theorem coreNext_of_takesByte (h : TakesByte op) :
    coreNext (.present (op ++ w)) a n = groupAfter (decode (op ++ w)) a n := by
  obtain ⟨hp, hf⟩ := strobes_of_takesByte w h
  refine (packerNext_of_push a n hp hf).trans ?_
  rw [decode_append]
  obtain rfl | rfl := h <;> rfl

theorem coreNext_of_endsText (h : EndsText op) :
    coreNext (.present (op ++ w)) a n = groupAfter (decode (op ++ w)) a n := by
  obtain ⟨-, hf⟩ := strobes_of_endsText w h
  refine (packerNext_of_flush a n _ hf).trans ?_
  rw [decode_append]
  obtain rfl | rfl := h <;> rfl

theorem coreNext_of_hasNoStrobe (h : HasNoStrobe op) :
    coreNext (.present (op ++ w)) a n = groupAfter (decode (op ++ w)) a n := by
  obtain ⟨hp, hf⟩ := strobes_of_hasNoStrobe w h
  refine (packerNext_of_idle a n hp hf).trans ?_
  rw [decode_append]
  obtain rfl | rfl | rfl | rfl | rfl | rfl | rfl | rfl | rfl | rfl | rfl | rfl := h <;> rfl

/-! ### The output pins -/

theorem coreOut_of_takesByte (h : TakesByte op) :
    coreOut (.present (op ++ w)) a n = (resultOf (decode (op ++ w)) a n).pins := by
  obtain ⟨hp, hf⟩ := strobes_of_takesByte w h
  obtain ⟨hvalid, hword⟩ := packerOut_of_push a n hp hf
  rw [decode_append]
  obtain rfl | rfl := h
  all_goals
    by_cases hn : n = 3#2
    · subst hn
      simp [coreOut, wordValid, wordSource, transposerIn, hvalid, hword, resultOf, Result.pins]
    · simp [coreOut, wordValid, hvalid, resultOf, Result.pins, hn]

theorem coreOut_of_endsText (h : EndsText op) :
    coreOut (.present (op ++ w)) a n = (resultOf (decode (op ++ w)) a n).pins := by
  obtain ⟨hp, hf⟩ := strobes_of_endsText w h
  obtain ⟨hvalid, hword⟩ := packerOut_of_flush a n hp hf
  rw [decode_append]
  obtain rfl | rfl := h
  all_goals
    by_cases hn : n = 0#2
    · subst hn
      simp [coreOut, wordValid, hvalid, resultOf, Result.pins]
    · simp [coreOut, wordValid, wordSource, transposerIn, hvalid, hword, resultOf, Result.pins, hn]

theorem coreOut_of_hasNoStrobe (h : HasNoStrobe op) :
    coreOut (.present (op ++ w)) a n = (resultOf (decode (op ++ w)) a n).pins := by
  obtain ⟨hp, hf⟩ := strobes_of_hasNoStrobe w h
  have hvalid := packerOut_wordValid_of_idle a n hp hf
  rw [decode_append]
  obtain rfl | rfl | rfl | rfl | rfl | rfl | rfl | rfl | rfl | rfl | rfl | rfl := h
  all_goals
    simp [coreOut, wordValid, wordSource, transposerIn, hvalid, packerOut_unpNz, packerOut_unpByte,
      resultOf, Result.pins]

variable (op)

theorem coreNext_present : coreNext (.present (op ++ w)) a n = groupAfter (decode (op ++ w)) a n := by
  obtain h | h | h := takesByte_or_endsText_or_hasNoStrobe op
  · exact coreNext_of_takesByte w a n h
  · exact coreNext_of_endsText w a n h
  · exact coreNext_of_hasNoStrobe w a n h

theorem coreOut_present : coreOut (.present (op ++ w)) a n = (resultOf (decode (op ++ w)) a n).pins := by
  obtain h | h | h := takesByte_or_endsText_or_hasNoStrobe op
  · exact coreOut_of_takesByte w a n h
  · exact coreOut_of_endsText w a n h
  · exact coreOut_of_hasNoStrobe w a n h

end

/-! ## The CORE at every edge -/

section
variable (p : InPins) (a : Word) (n : Lane)

theorem runs_of_not_running {p : InPins} (h : running p = false) (ops : List Nat) : runs p ops = false := by
  rw [runs, h, Bool.false_and]

/-- Without a command to execute every output is idle. -/
theorem coreOut_of_not_running {p : InPins} (h : running p = false) : coreOut p a n = Result.silent.pins := by
  have hvalid := packerOut_wordValid_of_idle a n (i := packerIn p) (runs_of_not_running h _) (runs_of_not_running h _)
  simp [coreOut, wordValid, hvalid, runs_of_not_running h, Result.pins]

theorem coreOut_eq : coreOut p a n = (edgeResult p a n).pins := by
  obtain hr | ⟨hr, hv⟩ | ⟨op, w, rfl⟩ := p.reset_or_idle_or_present
  · rw [edgeResult_of_rst a n hr, coreOut_of_not_running a n (by simp [running, hr])]
  · rw [edgeResult_of_idle a n hr hv, coreOut_of_not_running a n (by simp [running, hv])]
  · exact coreOut_present op w a n

theorem coreNext_eq : coreNext p a n = edgeGroup p a n := by
  obtain hr | ⟨hr, hv⟩ | ⟨op, w, rfl⟩ := p.reset_or_idle_or_present
  · simp [edgeGroup_of_rst a n hr, coreNext, packerNext, hr]
  · have hnone := runs_of_not_running (p := p) (by simp [running, hv])
    rw [edgeGroup_of_idle a n hr hv, coreNext, hr, packerNext_of_idle a n (hnone _) (hnone _)]
  · exact coreNext_present op w a n

end

end Blocks

/-- Settles O57: by `clockEdge_eq` the edge emits its result and loads its registers, and `coreOut_eq` and
`coreNext_eq` say that the netlist does the same. -/
theorem subBlocksImplementClockEdge : Obligations.SubBlocksImplementClockEdge := fun p s =>
  ⟨_, clockEdge_eq p s, (State.outPins_emit _ _).trans (Blocks.coreOut_eq p s.acc s.cnt).symm,
    (Blocks.coreNext_eq p s.acc s.cnt).symm, rfl⟩

end Sys2Proof.Machine
end

section
/-! The decoder by operation code and the encoder beside it (30_encoding.md R60 to R66). -/

namespace Sys2Proof

/-! ## Every command word, by its operation code -/

theorem opCode_cases (op : OpCode) :
    op = 0x0#4 ∨ op = 0x1#4 ∨ op = 0x2#4 ∨ op = 0x3#4 ∨ op = 0x4#4 ∨ op = 0x5#4 ∨ op = 0x6#4 ∨ op = 0x7#4 ∨
    op = 0x8#4 ∨ op = 0x9#4 ∨ op = 0xA#4 ∨ op = 0xB#4 ∨ op = 0xC#4 ∨ op = 0xD#4 ∨ op = 0xE#4 ∨ op = 0xF#4 := by
  revert op
  decide

theorem exists_eq_append (c : Cmd) : ∃ (op : OpCode) (w : Word), c = op ++ w :=
  ⟨opField c, wordField c, eq_opField_append_wordField c⟩

/-- Settles O48: the canonical word holds the operation code and the operand where the decoder reads them, which
`decode_encode` says for every command. -/
theorem decodeOfEncodeIsIdentity : Obligations.DecodeOfEncodeIsIdentity := decode_encode

/-- Settles O49: a command word is its operation code in front of its operand field, and for each of the sixteen codes
the decoder's line is the listed one. -/
theorem decodingFollowsOperationCode : Obligations.DecodingFollowsOperationCode := by
  refine ⟨fun c => ?_, fun s c => rfl⟩
  obtain ⟨op, w, rfl⟩ := exists_eq_append c
  rw [decode_append, ← opField, ← wordField, ← byteField, opField_append, wordField_append]
  obtain rfl | rfl | rfl | rfl | rfl | rfl | rfl | rfl | rfl | rfl | rfl | rfl | rfl | rfl | rfl | rfl :=
    opCode_cases op
  all_goals rfl

/-! ## Re-encoding a decoded word -/

/-- The word of a code whose operand field is ignored keeps its code only. -/
theorem encode_decode_of_noOperand {op : OpCode} (hop : op ∈ [0x0#4, 0x2#4, 0xB#4, 0xD#4, 0xE#4, 0xF#4]) (w : Word) :
    encode (decode (op ++ w)) = encodeN op := by
  rw [decode_append]
  simp only [List.mem_cons, List.not_mem_nil, or_false] at hop
  obtain rfl | rfl | rfl | rfl | rfl | rfl := hop
  all_goals rfl

/-- The word of a code with a byte operand keeps its code and `data[7:0]`. -/
theorem encode_decode_of_byteOperand {op : OpCode} (hop : op ∈ [0x1#4, 0xA#4]) (x : BitVec 24) (b : Byte) :
    encode (decode (op ++ (x ++ b))) = encodeB op b := by
  rw [decode_append, byteField_append]
  simp only [List.mem_cons, List.not_mem_nil, or_false] at hop
  obtain rfl | rfl := hop
  all_goals rfl

/-- The word of a code with a word operand has no ignored bit. -/
theorem encode_decode_of_wordOperand {op : OpCode}
    (hop : op ∈ [0x3#4, 0x4#4, 0x5#4, 0x6#4, 0x7#4, 0x8#4, 0x9#4, 0xC#4]) (w : Word) :
    encode (decode (op ++ w)) = encodeW op w := by
  rw [decode_append]
  simp only [List.mem_cons, List.not_mem_nil, or_false] at hop
  obtain rfl | rfl | rfl | rfl | rfl | rfl | rfl | rfl := hop
  all_goals rfl

/-- Settles O50: the three kinds of operand, one lemma each. -/
theorem encodeOfDecodeClearsIgnoredBits : Obligations.EncodeOfDecodeClearsIgnoredBits :=
  ⟨fun _ x hop => encode_decode_of_noOperand hop x, fun _ x b hop => encode_decode_of_byteOperand hop x b,
    fun _ w hop => encode_decode_of_wordOperand hop w⟩

/-- Settles O51: ten of the words are canonical, and the last is a reserved code in front of an ignored operand
field. -/
theorem writtenOutWordsDecode : Obligations.WrittenOutWordsDecode :=
  ⟨decode_encode .nop, decode_encode (.push 0x41#8), decode_encode .flush, decode_encode (.unpack 0x44455246#32),
    decode_encode (.lane 3#2 0x44455246#32), decode_encode (.fwd 0x44455246#32), decode_encode (.inv 0x0F020D34#32),
    decode_encode (.encb 0x41#8), decode_encode .encf, decode_encode (.decw 0x0F020D34#32),
    decode_append 0xF#4 0xDEADBEEF#32⟩

/-! ## Numbers as command words -/

theorem decodeNat_of_lt {w : Nat} (h : w < 2 ^ 36) : decodeNat w = .ok (decode (BitVec.ofNat 36 w)) := if_pos h

theorem decodeNat_of_le {w : Nat} (h : 2 ^ 36 ≤ w) : decodeNat w = .error .widerThanCommand :=
  if_neg (Nat.not_lt.mpr h)

theorem decodeTableWord_of_lt (nbits : Nat) {w : Nat} (h : w < 2 ^ 36) :
    decodeTableWord nbits w = some (decode (BitVec.ofNat 36 w)) := by
  simp only [decodeTableWord, decodeNat_of_lt h]

theorem decodeTableWord_of_le (nbits : Nat) {w : Nat} (h : 2 ^ 36 ≤ w) : decodeTableWord nbits w = none := by
  simp only [decodeTableWord, decodeNat_of_le h]

/-- Settles O52: below the bound the number is decoded as the command word it is, from the bound on it is refused. -/
theorem numbersWiderThanCommandAreRefused : Obligations.NumbersWiderThanCommandAreRefused := by
  refine fun nbits w => ⟨⟨fun hnone => ?_, decodeTableWord_of_le nbits⟩, ?_⟩
  · refine Nat.not_lt.mp fun hlt => ?_
    rw [decodeTableWord_of_lt nbits hlt] at hnone
    cases hnone
  · rintro c rfl
    rw [decodeTableWord_of_lt nbits c.isLt, BitVec.ofNat_toNat, BitVec.setWidth_eq]

/-! ## The opcode table -/

/-- Settles O53: the operand plays no part (`Laws.claims_eq`), so for each command its code decides all thirteen
rows. -/
theorem everyCommandStandsInItsOwnRow : Obligations.EveryCommandStandsInItsOwnRow := by
  intro i
  cases i with
  | nop => exact Laws.InItsTableRow.nop
  | push b => exact Laws.InItsTableRow.push b
  | flush => exact Laws.InItsTableRow.flush
  | unpack w => exact Laws.InItsTableRow.unpack w
  | lane k w => exact Laws.InItsTableRow.lane k w
  | fwd w => exact Laws.InItsTableRow.fwd w
  | inv e => exact Laws.InItsTableRow.inv e
  | encb b => exact Laws.InItsTableRow.encb b
  | encf => exact Laws.InItsTableRow.encf
  | decw e => exact Laws.InItsTableRow.decw e
  | reservedD => exact Laws.InItsTableRow.reservedD
  | reservedE => exact Laws.InItsTableRow.reservedE
  | reservedF => exact Laws.InItsTableRow.reservedF

/-! ## The reserved codes -/

/-- Settles O34: `decode_append` never looks at the operand field of the three codes, and each of their arms emits the
fault and nothing else. -/
theorem reservedCodesTakeIllegalCommand : Obligations.ReservedCodesTakeIllegalCommand := by
  refine ⟨fun x => ⟨decode_append 0xD#4 x, decode_append 0xE#4 x, decode_append 0xF#4 x⟩, fun s i op hmem => ?_⟩
  simp only [List.mem_cons, List.not_mem_nil, or_false, Prod.mk.injEq] at hmem
  obtain ⟨rfl, rfl⟩ | ⟨rfl, rfl⟩ | ⟨rfl, rfl⟩ := hmem
  all_goals exact ⟨rfl, rfl, rfl⟩

end Sys2Proof
end

section
/-! The assembler (30_encoding.md R68, R69): which operands it takes, what a statement expands to, and the command words
it writes. -/

namespace Sys2Proof.Asm

open Sys2Proof.Machine

/-! ## Operands: accepted or rejected -/

/-- The assembler's answer `r` agrees with the verdict of the range check: an answer where the operands fit, else the
rejection that names their range (R68). -/
def Judged {α : Type} (verdict : Bool) (r : Except Error α) : Prop :=
  (verdict = true ∧ ∃ x, r = .ok x) ∨ (verdict = false ∧ r = .error .operandRange)

theorem Judged.accept {α : Type} (x : α) : Judged true (.ok x) := .inl ⟨rfl, x, rfl⟩

theorem Judged.reject {α : Type} : Judged false (.error .operandRange : Except Error α) := .inr ⟨rfl, rfl⟩

theorem Judged.map {α β : Type} {verdict : Bool} {r : Except Error α} (h : Judged verdict r) (f : α → β) :
    Judged verdict (r.map f) := by
  obtain ⟨rfl, x, rfl⟩ | ⟨rfl, rfl⟩ := h
  · exact .accept (f x)
  · exact .reject

theorem field_judged (bits : Nat) (v : Int) : Judged (fits bits v) (field bits v) := by
  cases v with
  | ofNat n =>
    by_cases h : n < 2 ^ bits
    · simpa [fits, field, h] using Judged.accept (BitVec.ofNat bits n)
    · simpa [fits, field, h] using Judged.reject
  | negSucc n => exact .reject

/-- A list of operands is taken when every one of them is; the first that does not fit rejects it. -/
theorem fields_judged (bits : Nat) (vs : List Int) : Judged (vs.all (fits bits)) (fields bits vs) := by
  induction vs with
  | nil => exact .accept []
  | cons v vs ih =>
    rw [List.all_cons, fields]
    obtain ⟨hfits, b, hb⟩ | ⟨hfits, hb⟩ := field_judged bits v
    · obtain ⟨hall, bs, hbs⟩ | ⟨hall, hbs⟩ := ih
      · rw [hfits, hall, hb, hbs]
        exact .accept (b :: bs)
      · rw [hfits, hall, hb, hbs]
        exact .reject
    · rw [hfits, hb]
      exact .reject

/-- LANE has two operands, and the select is looked at first. -/
theorem expand_lane_judged (s v : Int) : Judged (operandsFit (.lane s v)) (expand (.lane s v)) := by
  rw [operandsFit, expand]
  obtain ⟨hsel, k, hk⟩ | ⟨hsel, hk⟩ := field_judged 2 s
  · obtain ⟨hfits, w, hw⟩ | ⟨hfits, hw⟩ := field_judged 32 v
    · rw [hsel, hfits, hk, hw]
      exact .accept [Instr.lane k w]
    · rw [hsel, hfits, hk, hw]
      exact .reject
  · rw [hsel, hk]
    exact .reject

/-! ## Operands written as their values -/

/-- A value of the field's width is taken as it is. -/
theorem field_toNat {bits : Nat} (x : BitVec bits) : field bits x.toNat = .ok x := by
  have h : field bits x.toNat = if x.toNat < 2 ^ bits then .ok (BitVec.ofNat bits x.toNat) else .error .operandRange :=
    rfl
  rw [h, if_pos x.isLt, BitVec.ofNat_toNat, BitVec.setWidth_eq]

/-- A list of such values too. -/
theorem fields_map_toNat {bits : Nat} (xs : List (BitVec bits)) :
    fields bits (xs.map (fun x => (x.toNat : Int))) = .ok xs := by
  induction xs with
  | nil => rfl
  | cons x xs ih => rw [List.map_cons, fields, field_toNat, ih]

/-! ## What a statement stands for -/

section
variable (b : Byte) (k : Lane) (w : Word) (t : List Byte) (ws : List Word)

theorem expand_nop : expand .nop = .ok [.nop] := rfl

theorem expand_flush : expand .flush = .ok [.flush] := rfl

theorem expand_encf : expand .encf = .ok [.encf] := rfl

theorem expand_push : expand (.push b.toNat) = .ok [.push b] :=
  congrArg (Except.map fun b => [Instr.push b]) (field_toNat b)

theorem expand_unpack : expand (.unpack w.toNat) = .ok [.unpack w] :=
  congrArg (Except.map fun w => [Instr.unpack w]) (field_toNat w)

theorem expand_lane : expand (.lane k.toNat w.toNat) = .ok [.lane k w] := by
  rw [expand, field_toNat, field_toNat]

theorem expand_fwd : expand (.fwd w.toNat) = .ok [.fwd w] :=
  congrArg (Except.map fun w => [Instr.fwd w]) (field_toNat w)

theorem expand_inv : expand (.inv w.toNat) = .ok [.inv w] :=
  congrArg (Except.map fun w => [Instr.inv w]) (field_toNat w)

theorem expand_encb : expand (.encb b.toNat) = .ok [.encb b] :=
  congrArg (Except.map fun b => [Instr.encb b]) (field_toNat b)

theorem expand_decw : expand (.decw w.toNat) = .ok [.decw w] :=
  congrArg (Except.map fun w => [Instr.decw w]) (field_toNat w)

theorem expand_packText : expand (.packText (t.map (fun b => (b.toNat : Int)))) = .ok (packCommands t) :=
  congrArg (Except.map packCommands) (fields_map_toNat t)

theorem expand_encodeText : expand (.encodeText (t.map (fun b => (b.toNat : Int)))) = .ok (encodeCommands t) :=
  congrArg (Except.map encodeCommands) (fields_map_toNat t)

theorem expand_unpacks : expand (.unpacks (ws.map (fun w => (w.toNat : Int)))) = .ok (unpackCommands ws) :=
  congrArg (Except.map unpackCommands) (fields_map_toNat ws)

theorem expand_decodeWords : expand (.decodeWords (ws.map (fun w => (w.toNat : Int)))) = .ok (decodeCommands ws) :=
  congrArg (Except.map decodeCommands) (fields_map_toNat ws)

theorem expand_laneAt : expand (.laneAt k w.toNat) = .ok [.lane k w] :=
  congrArg (Except.map fun w => [Instr.lane k w]) (field_toNat w)

/-! ## The command words -/

theorem encodeL_eq_encodeW : encodeL k w = encodeW (0x4#4 + k.setWidth 4) w := by
  have hop : 0b01#2 ++ k = 0x4#4 + k.setWidth 4 := by
    revert k
    decide
  rw [encodeL, hop, encodeW]

theorem map_encode_packCommands : (packCommands t).map encode = t.map (encodeB 0x1#4) ++ [encodeN 0x2#4] := by
  simp [packCommands, encode]

theorem map_encode_encodeCommands : (encodeCommands t).map encode = t.map (encodeB 0xA#4) ++ [encodeN 0xB#4] := by
  simp [encodeCommands, encode]

theorem map_encode_unpackCommands : (unpackCommands ws).map encode = ws.map (encodeW 0x3#4) := by
  simp [unpackCommands, encode]

theorem map_encode_decodeCommands : (decodeCommands ws).map encode = ws.map (encodeW 0xC#4) := by
  simp [decodeCommands, encode]

end

/-- Every statement but `.word` is written as the canonical words of its commands (R66, R68). -/
theorem assemble_eq_map_expand (a : Asm) (hraw : ∀ c, a ≠ .rawWord c) :
    assemble a = (expand a).map (fun is => is.map encode) := by
  cases a
  case rawWord c => exact absurd rfl (hraw c)
  all_goals rfl

theorem assemble_of_expand {a : Asm} {is : List Instr} (h : expand a = .ok is)
    (hraw : ∀ c, a ≠ .rawWord c := by nofun) : assemble a = .ok (is.map encode) := by
  rw [assemble_eq_map_expand a hraw, h]
  rfl

theorem assemble_rawWord (c : Int) : assemble (.rawWord c) = (field 36 c).map (fun c => [c]) := rfl

/-! ## The verdict on a whole statement -/

theorem expand_judged (a : Asm) : Judged a.operandsFit (expand a) := by
  cases a with
  | nop | flush | encf => exact .accept _
  | push v | encb v => exact (field_judged 8 v).map _
  | unpack v | fwd v | inv v | decw v | laneAt _ v => exact (field_judged 32 v).map _
  | rawWord c => exact (field_judged 36 c).map _
  | packText vs | encodeText vs => exact (fields_judged 8 vs).map _
  | unpacks vs | decodeWords vs => exact (fields_judged 32 vs).map _
  | lane s v => exact expand_lane_judged s v

theorem assemble_judged (a : Asm) : Judged a.operandsFit (assemble a) := by
  cases a
  case rawWord c => exact (field_judged 36 c).map _
  all_goals exact (expand_judged _).map _

/-! ## The obligations -/

/-- Settles O55: the operands are taken as they are (`fields_map_toNat`), and what is made of them is the list of the
command sequence. -/
theorem pseudoInstructionsExpandAsListed : Obligations.PseudoInstructionsExpandAsListed := fun t ws k w =>
  ⟨expand_packText t, expand_encodeText t, expand_unpacks ws, expand_decodeWords ws, expand_laneAt k w⟩

/-- Settles O54: what a statement stands for, then the canonical word of each of its commands. -/
theorem assemblerWritesCanonicalWords : Obligations.AssemblerWritesCanonicalWords := by
  intro b k w c t ws
  have hlane : [encode (.lane k w)] = [encodeW (0x4#4 + k.setWidth 4) w] :=
    congrArg (fun c => [c]) (encodeL_eq_encodeW k w)
  refine ⟨?_, ?_, ?_, ?_, ?_, ?_, assemble_of_expand expand_nop, assemble_of_expand (expand_push b),
    assemble_of_expand expand_flush, assemble_of_expand (expand_unpack w), ?_, assemble_of_expand (expand_fwd w),
    assemble_of_expand (expand_inv w), assemble_of_expand (expand_encb b), assemble_of_expand expand_encf,
    assemble_of_expand (expand_decw w)⟩
  · rw [assemble_rawWord, field_toNat]
    rfl
  · rw [assemble_of_expand (expand_packText t), map_encode_packCommands]
    rfl
  · rw [assemble_of_expand (expand_encodeText t), map_encode_encodeCommands]
    rfl
  · rw [assemble_of_expand (expand_unpacks ws), map_encode_unpackCommands]
    rfl
  · rw [assemble_of_expand (expand_decodeWords ws), map_encode_decodeCommands]
    rfl
  · exact (assemble_of_expand (expand_laneAt k w)).trans (congrArg Except.ok hlane)
  · exact (assemble_of_expand (expand_lane k w)).trans (congrArg Except.ok hlane)

/-- Settles O56: the range check and the assembler agree on every statement (`assemble_judged`). -/
theorem assemblerAcceptsExactlyWhatFits : Obligations.AssemblerAcceptsExactlyWhatFits := by
  intro a
  rw [Asm.wellFormed]
  obtain ⟨hfits, cs, hcs⟩ | ⟨hfits, herror⟩ := assemble_judged a
  · exact ⟨fun _ => ⟨cs, hcs⟩, fun h => nomatch hfits.symm.trans h⟩
  · exact ⟨fun h => (nomatch hfits.symm.trans h), fun _ => herror⟩

end Sys2Proof.Asm
end

section
/-! The `byte_packer` commands one at a time (40_packer.md R90 to R97): the lane functions, and PUSH, FLUSH, UNPACK and
LANE with their encodings. -/

namespace Sys2Proof.Machine

/-! ## The lane functions -/

/-- The lane of the shifted word is the field of the word at the lane's offset (R90). -/
theorem lane_eq_extractLsb' (w : Word) (s : Lane) : lane w s = w.extractLsb' (8 * s.toNat) 8 := by
  apply BitVec.eq_of_getLsbD_eq
  intro i _
  rw [lane_getLsbD, BitVec.getLsbD_extractLsb', laneOffset]

/-- A placed byte is the byte times the weight of its lane: no bit is shifted out (R91). -/
theorem place_toNat (b : Byte) (s : Lane) : (place b s).toNat = b.toNat * 2 ^ (8 * s.toNat) := by
  have hb := b.isLt
  have hweight : 2 ^ laneOffset s ≤ 2 ^ 24 := Nat.pow_le_pow_right (by decide) (laneOffset_le s)
  have hfits : b.toNat * 2 ^ laneOffset s < 2 ^ 32 :=
    calc b.toNat * 2 ^ laneOffset s ≤ b.toNat * 2 ^ 24 := Nat.mul_le_mul_left _ hweight
      _ < 2 ^ 32 := by omega
  rw [place, BitVec.toNat_shiftLeft, Nat.shiftLeft_eq, BitVec.toNat_setWidth_of_le (by decide), Nat.mod_eq_of_lt hfits,
    laneOffset]

/-- Lane 0 is steered by zero bits: the byte is zero-extended. -/
theorem place_zero (b : Byte) : place b 0#2 = b.setWidth 32 := BitVec.shiftLeft_zero _

/-- Settles O12: `lane_eq_extractLsb'` reads a lane as a field of the word, `place_toNat` says that no bit is lost, and
a placed byte stands in its own lane only. -/
theorem laneAndPlaceAreInverse : Obligations.LaneAndPlaceAreInverse := by
  refine ⟨fun w s => ⟨?_, lane_eq_extractLsb' w s⟩, fun b s =>
    ⟨place_toNat b s, lane_place_same b s, fun t ht => lane_place_of_ne b ht⟩⟩
  exact BitVec.setWidth_eq_extractLsb' (by decide)

/-! ## PUSH and FLUSH -/

/-- Settles O13: the decoder reads `data[7:0]` only, and the two branches are those of `State.takeByte` with no
route. -/
theorem pushTakesOneByte : Obligations.PushTakesOneByte := by
  refine ⟨fun x b => ?_, fun b => rfl, fun s b => ⟨fun hcnt => ?_, fun hcnt => ?_⟩⟩
  · exact (decode_append 0x1#4 (x ++ b)).trans (congrArg Instr.push (byteField_append 0x1#4 x b))
  · exact congrArg Host.Outcome.next (s.takeByte_of_not_full id b hcnt)
  · exact congrArg Host.Outcome.next (s.takeByte_of_full id b hcnt)

/-- Settles O14: the decoder reads the operation code only, and the two cases are those of `State.endText` with no
route. -/
theorem flushEndsText : Obligations.FlushEndsText := by
  refine ⟨decode_append 0x2#4, rfl, fun s => ⟨fun hcnt => ?_, fun hcnt => ?_⟩⟩
  · exact congrArg Host.Outcome.next (s.endText_of_pending id hcnt)
  · exact congrArg Host.Outcome.next (s.endText_of_idle id hcnt)

/-! ## UNPACK and LANE -/

/-- Settles O15: the mask is `nonzeroLanes w`, fixed bit by bit by `nonzeroLanes_getLsbD`, and `bytes_nonzeroLanes`
gives the bytes it lets through. -/
theorem unpackOutputsNonzeroLanes : Obligations.UnpackOutputsNonzeroLanes :=
  ⟨decode_append 0x3#4, fun _ => rfl,
    fun _ w => ⟨nonzeroLanes w, nonzeroLanes_getLsbD w, rfl, bytes_nonzeroLanes w⟩⟩

/-- A zero-extended byte with lane 0 strobed is output as it is, also when it is zero (R97). -/
theorem bytes_lane_zero (b : Byte) : (Result.lanes 0b0001#4 (b.setWidth 32)).bytes = [b] := by
  have hlane0 : (Result.lanes 0b0001#4 (b.setWidth 32)).bytes = [lane (b.setWidth 32) 0#2] := rfl
  rw [hlane0, ← place_zero, lane_place_same]

/-- Settles O16: the canonical word of LANE is the operation code `0x4 + s` in front of the word, and
`bytes_lane_zero` is its one byte. -/
theorem laneOutputsSelectedByte : Obligations.LaneOutputsSelectedByte :=
  ⟨fun k w => decode_encode (.lane k w), fun k w => Asm.encodeL_eq_encodeW k w,
    fun _ k w => ⟨rfl, bytes_lane_zero (lane w k)⟩⟩

end Sys2Proof.Machine
end

section
/-! Runs of commands that leave the group alone (20_memory.md R53), and with them the unpack side over whole runs
(40_packer.md R97, R98). -/

namespace Sys2Proof.Machine

/-! ## A run of commands that leave the group alone -/

/-- A step on the canonical word of a command executes the command. -/
theorem step_of_presented {s : State} {i : Instr} {ps : List InPins} (h : s.pending = .present (encode i) :: ps) :
    step s = exec i (s.setPending ps) :=
  (step_of_pending_cons h).trans (congrArg (exec · (s.setPending ps)) (decode_encode i))

/-- Each command answers what it answers at the start of a text, and the registers are kept. -/
theorem run_presentAll_of_leavesGroup {is : List Instr} (his : ∀ i ∈ is, i.leavesGroup = true) {s : State}
    {ps : List InPins} (hpending : s.pending = presentAll is ++ ps) :
    core.run is.length s =
      .next { s with pending := ps, results := s.results ++ is.map (resultOf · 0#32 0#2) } := by
  induction is generalizing s with
  | nil =>
    obtain ⟨g, q, rs⟩ := s
    obtain rfl : q = ps := hpending
    simp [run_zero]
  | cons i is ih =>
    have hstep : step s = .next ((s.setPending (presentAll is ++ ps)).emit (resultOf i 0#32 0#2)) :=
      (step_of_presented hpending).trans (exec_of_leavesGroup (his i (by simp)) _)
    rw [List.length_cons, run_succ _ _ _ hstep, ih (fun j hj => his j (by simp [hj])) (by simp)]
    simp [State.emit, State.setPending]

/-- The same with nothing else in hand. -/
theorem run_setPending_of_leavesGroup {is : List Instr} (his : ∀ i ∈ is, i.leavesGroup = true) (s : State) :
    core.run is.length (s.setPending (presentAll is)) =
      .next { s with pending := [], results := s.results ++ is.map (resultOf · 0#32 0#2) } :=
  run_presentAll_of_leavesGroup his (List.append_nil _).symm

/-! ## Masked words as results -/

/-- The results of outputting the lanes of each word in turn, the zero ones masked off. -/
def unpackResults (ws : List Word) : List Result := ws.map (fun w => .lanes (nonzeroLanes w) w)

theorem map_resultOf_unpackCommands (ws : List Word) :
    (unpackCommands ws).map (resultOf · 0#32 0#2) = unpackResults ws := List.map_map

theorem bytesOf_unpackResults (ws : List Word) : bytesOf (unpackResults ws) = unpack ws := by
  induction ws with
  | nil => rfl
  | cons w ws ih =>
    rw [unpackResults, List.map_cons, bytesOf_cons, bytes_nonzeroLanes, ← unpackResults, ih, unpack_cons]

theorem wordsOf_unpackResults (ws : List Word) : wordsOf (unpackResults ws) = [] := by
  simp [wordsOf, unpackResults, Result.word?]

theorem isIllegal_of_mem_unpackResults {ws : List Word} {r : Result} (h : r ∈ unpackResults ws) :
    r.isIllegal = false := by
  obtain ⟨w, -, rfl⟩ := List.mem_map.mp h
  rfl

/-- A word outputs at most its four lanes. -/
theorem unpack_length_le (ws : List Word) : (unpack ws).length ≤ 4 * ws.length := by
  induction ws with
  | nil => exact Nat.le_refl 0
  | cons w ws ih =>
    have hword : ((allLanes.map (lane w)).filter (fun b => b != 0#8)).length ≤ 4 := List.length_filter_le ..
    rw [unpack_cons, List.length_append, List.length_cons]
    omega

/-- Settles O42: UNPACK leaves the group alone, so the run adds `unpackResults ws` and changes nothing else. -/
theorem unpackCommandsOutputUnpack : Obligations.UnpackCommandsOutputUnpack := by
  intro ws s ps hpending
  have hpure : ∀ i ∈ unpackCommands ws, i.leavesGroup = true := by simp [unpackCommands, Instr.leavesGroup]
  have hrun := run_presentAll_of_leavesGroup hpure hpending
  rw [map_resultOf_unpackCommands, unpackCommands, List.length_map] at hrun
  exact ⟨unpackResults ws, hrun, bytesOf_unpackResults ws, wordsOf_unpackResults ws,
    fun _ => isIllegal_of_mem_unpackResults, unpack_length_le ws⟩

/-- The LANE commands of a list of lanes output those lanes, zero or not. -/
theorem bytesOf_lane_commands (ks : List Lane) (w : Word) :
    bytesOf ((ks.map (Instr.lane · w)).map (resultOf · 0#32 0#2)) = ks.map (lane w) := by
  induction ks with
  | nil => rfl
  | cons k ks ih =>
    rw [List.map_cons, List.map_cons, bytesOf_cons, ih, List.map_cons]
    exact congrArg (· ++ _) (bytes_lane_zero (lane w k))

/-- Settles O17: the four LANE commands output the four lanes of the word, and UNPACK the non-zero ones of them. -/
theorem unpackIsFourLanesWithoutZeros : Obligations.UnpackIsFourLanesWithoutZeros := by
  intro s w
  have hunpack := run_setPending_of_leavesGroup (is := [.unpack w]) (by simp [Instr.leavesGroup]) s
  have hlanes := run_setPending_of_leavesGroup (is := allLanes.map (.lane · w)) (by simp [Instr.leavesGroup]) s
  refine ⟨_, _, allLanes.map (lane w), hunpack, hlanes, ?_, ?_⟩
  · rw [bytesOf_append, bytesOf_lane_commands]
  · rw [bytesOf_append, List.map_singleton, bytesOf_cons, bytesOf_nil, List.append_nil]
    exact congrArg (_ ++ ·) (bytes_nonzeroLanes w)

end Sys2Proof.Machine
end

section
/-! The function `pack` lane by lane (40_packer.md R95), what unpacking its words gives back (R99, R101), and the run of
PUSH and FLUSH that computes it. -/

namespace Sys2Proof.Machine

/-! ## Four bytes in a word -/

/-- Four bytes, each placed in its lane (R91, R95). -/
def mergedBytes (a b c d : Byte) : Word := place a 0#2 ||| place b 1#2 ||| place c 2#2 ||| place d 3#2

@[simp] theorem zero_place (n : Lane) : place 0#8 n = 0#32 := by simp [place]

theorem lane_mergedBytes (a b c d : Byte) (k : Lane) :
    lane (mergedBytes a b c d) k = [a, b, c, d].getD k.toNat 0#8 := by
  rcases lane_cases k with rfl | rfl | rfl | rfl <;> simp [mergedBytes, lane_or, lane_place_of_ne]

theorem lanes_mergedBytes (a b c d : Byte) : allLanes.map (lane (mergedBytes a b c d)) = [a, b, c, d] := by
  simp [allLanes, lane_mergedBytes]

theorem unpack_mergedBytes_cons (a b c d : Byte) (ws : List Word) :
    unpack (mergedBytes a b c d :: ws) = [a, b, c, d].filter (fun x => x != 0#8) ++ unpack ws := by
  rw [unpack_cons, lanes_mergedBytes]

/-! ## The words of a text -/

/-- In an OR over a list, the entries that are zero may be left out. -/
theorem foldl_or_map_filter {α : Type} (p : α → Bool) (f : α → Word) (h : ∀ x, p x = false → f x = 0#32)
    (xs : List α) (e : Word) : ((xs.filter p).map f).foldl (· ||| ·) e = (xs.map f).foldl (· ||| ·) e := by
  induction xs generalizing e with
  | nil => rfl
  | cons x xs ih =>
    cases hx : p x with
    | true => simp [hx, ih]
    | false => simp [hx, ih, h x hx]

/-- A word of a text, the lanes past the end of the text filled with zeros. -/
theorem packedWord_eq_mergedBytes (t : List Byte) (k : Nat) :
    packedWord t k = mergedBytes (t.getD (4 * k) 0#8) (t.getD (4 * k + 1) 0#8) (t.getD (4 * k + 2) 0#8)
      (t.getD (4 * k + 3) 0#8) := by
  have hpast (n : Lane) (h : decide (4 * k + n.toNat < t.length) = false) :
      place (t.getD (4 * k + n.toNat) 0#8) n = 0#32 := by
    rw [List.getD_eq_default t 0#8 (Nat.not_lt.mp (of_decide_eq_false h)), zero_place]
  rw [packedWord, foldl_or_map_filter _ _ hpast]
  simp [allLanes, mergedBytes]

theorem lane_packedWord (t : List Byte) (k : Nat) (b : Lane) :
    lane (packedWord t k) b = t.getD (4 * k + b.toNat) 0#8 := by
  rw [packedWord_eq_mergedBytes, lane_mergedBytes]
  rcases lane_cases b with rfl | rfl | rfl | rfl <;> rfl

theorem pack_length (t : List Byte) : (pack t).length = ceilDiv t.length 4 := by
  rw [pack, List.length_map, List.length_range]

theorem pack_getD {t : List Byte} {k : Nat} (h : k < (pack t).length) : (pack t).getD k 0#32 = packedWord t k := by
  rw [List.getD_eq_getElem _ _ h]
  simp [pack]

/-- Settles O38: `pack_length` gives the number of words and `lane_packedWord` their lanes. -/
theorem packHoldsTextLaneByLane : Obligations.PackHoldsTextLaneByLane := by
  intro t
  have hlen : (pack t).length = (t.length + 4 - 1) / 4 := pack_length t
  refine ⟨by omega, by omega, fun k hk b => ?_⟩
  rw [pack_getD hk, lane_packedWord]

/-! ## Packing and unpacking -/

/-- Group by group: the zero lanes above a partial group are dropped like the zero bytes of the text. -/
theorem unpack_pack : ∀ t : List Byte, unpack (pack t) = t.filter (fun b => b != 0#8)
  | [] => rfl
  | [a] => by simp [unpack_cons, allLanes, lane_place_of_ne, List.filter_cons]
  | [a, b] => by simp [unpack_cons, allLanes, lane_or, lane_place_of_ne, List.filter_cons]
  | [a, b, c] => by simp [unpack_cons, allLanes, lane_or, lane_place_of_ne, List.filter_cons]
  | a :: b :: c :: d :: t => by
    rw [pack_cons4, BitVec.zero_or, ← mergedBytes, unpack_mergedBytes_cons, unpack_pack t, ← List.filter_append]
    rfl

/-- Settles O44: by `unpack_pack`, and a text equals itself without its zero bytes exactly when it has none. -/
theorem packThenUnpackDropsZeroBytes : Obligations.PackThenUnpackDropsZeroBytes := by
  refine fun t => ⟨unpack_pack t, ?_⟩
  rw [unpack_pack, List.filter_eq_self, Config.nulFree, List.all_eq_true]
  exact Iff.rfl

/-! ## PUSH of every byte and a FLUSH -/

/-- A command that writes the group outputs a word or nothing (R44). -/
theorem resultOf_of_not_leavesGroup {i : Instr} (h : i.leavesGroup = false) (a : Word) (n : Lane) :
    resultOf i a n = .silent ∨ ∃ v, resultOf i a n = .word v := by
  cases i with
  | push _ | flush | encb _ | encf =>
    simp only [resultOf]
    split <;> simp
  | nop | unpack _ | lane _ _ | fwd _ | inv _ | decw _ | reservedD | reservedE | reservedF =>
    exact absurd h.symm Bool.false_ne_true

/-- A run of such commands outputs words only. -/
theorem silent_or_word_of_mem_resultsRun {is : List Instr} (his : ∀ i ∈ is, i.leavesGroup = false)
    {g : Word × Lane} {r : Result} (h : r ∈ resultsRun (presentAll is) g) : r = .silent ∨ ∃ v, r = .word v := by
  induction is generalizing g with
  | nil => cases h
  | cons i is ih =>
    rw [resultsRun_presentAll_cons] at h
    rcases List.mem_cons.mp h with rfl | h
    · exact resultOf_of_not_leavesGroup (his i (by simp)) g.1 g.2
    · exact ih (fun j hj => his j (by simp [hj])) h

theorem bytesOf_resultsRun_of_not_leavesGroup {is : List Instr} (his : ∀ i ∈ is, i.leavesGroup = false)
    (g : Word × Lane) : bytesOf (resultsRun (presentAll is) g) = [] := by
  refine List.flatMap_eq_nil_iff.mpr fun r hr => ?_
  obtain rfl | ⟨v, rfl⟩ := silent_or_word_of_mem_resultsRun his hr
  all_goals rfl

theorem isIllegal_of_mem_resultsRun {is : List Instr} (his : ∀ i ∈ is, i.leavesGroup = false) {g : Word × Lane}
    {r : Result} (h : r ∈ resultsRun (presentAll is) g) : r.isIllegal = false := by
  obtain rfl | ⟨v, rfl⟩ := silent_or_word_of_mem_resultsRun his h
  all_goals rfl

theorem presentAll_packCommands (t : List Byte) :
    presentAll (packCommands t) = pushPins t ++ presentAll [.flush] := List.map_append

/-- FLUSH leaves the registers as at the start of a text. -/
theorem groupRun_packCommands (t : List Byte) (g : Word × Lane) :
    groupRun (presentAll (packCommands t)) g = (0#32, 0#2) := by
  rw [presentAll_packCommands, groupRun_append, groupRun_presentAll_cons]
  rfl

/-- The words of a text are those of its full groups and, if bytes are left, the word of these. -/
theorem pack_eq_take_append (t : List Byte) :
    pack t = (pack t).take (t.length / 4) ++ if t.length % 4 = 0 then [] else [packedWord t (t.length / 4)] := by
  split
  · have hlen : (pack t).length ≤ t.length / 4 := by
      rw [pack_length, ceilDiv]
      omega
    rw [List.take_of_length_le hlen, List.append_nil]
  · have hceil : ceilDiv t.length 4 = t.length / 4 + 1 := by
      rw [ceilDiv]
      omega
    rw [pack, hceil, List.range_succ, List.map_append, List.map_singleton, List.take_left' (by simp)]

/-- FLUSH emits the accumulator if bytes are waiting in it. -/
theorem wordsOf_flush (a : Word) (n : Lane) :
    wordsOf (resultsRun (presentAll [.flush]) (a, n)) = if n = 0#2 then [] else [a] := by
  by_cases h : n = 0#2 <;> simp [presentAll, resultsRun, resultOf, h, wordsOf, Result.word?]

/-- PUSH of every byte emits the full groups, and FLUSH the bytes left. -/
theorem wordsOf_packCommands (t : List Byte) :
    wordsOf (resultsRun (presentAll (packCommands t)) (0#32, 0#2)) = pack t := by
  have hcnt : BitVec.ofNat 2 t.length = 0#2 ↔ t.length % 4 = 0 := by simp [BitVec.toNat_eq]
  rw [presentAll_packCommands, resultsRun_append, wordsOf_append, wordsOf_pushPins, groupRun_pushPins, wordsOf_flush]
  simp only [hcnt]
  exact (pack_eq_take_append t).symm

theorem leavesGroup_of_mem_packCommands {t : List Byte} {i : Instr} (h : i ∈ packCommands t) :
    i.leavesGroup = false := by
  simp only [packCommands, List.mem_append, List.mem_map, List.mem_singleton] at h
  obtain ⟨b, -, rfl⟩ | rfl := h
  all_goals rfl

/-- Settles O39: the run of the pushes and the flush, by its registers (`groupRun_packCommands`) and its words
(`wordsOf_packCommands`). -/
theorem packCommandsEmitPack : Obligations.PackCommandsEmitPack := by
  rintro t ⟨⟨a, n⟩, q, rs⟩ ps ⟨hacc, hcnt⟩ hpending
  obtain rfl : a = 0#32 := hacc
  obtain rfl : n = 0#2 := hcnt
  have hlen : (presentAll (packCommands t)).length = t.length + 1 := by simp [packCommands]
  have hwrites : ∀ i ∈ packCommands t, i.leavesGroup = false := fun _ => leavesGroup_of_mem_packCommands
  have hrun := run_pins _ ps _ hpending
  rw [hlen, groupRun_packCommands] at hrun
  exact ⟨_, hrun, (resultsRun_length ..).trans hlen, wordsOf_packCommands t,
    bytesOf_resultsRun_of_not_leavesGroup hwrites _, fun _ => isIllegal_of_mem_resultsRun hwrites⟩

end Sys2Proof.Machine
end

section
/-! The index maps of the two permutations on 0..31 (41_transposer.md R120, R125, R127) and the bits they carry: the
permutations undo each other, FWD, the permutation matrix, and the order of the permutation. -/

namespace Sys2Proof.Machine

/-! ## The index maps -/

theorem fwdIndex_lt {i : Nat} (hi : i < 32) : fwdIndex i < 32 := by
  unfold fwdIndex
  omega

theorem invIndex_lt {j : Nat} (hj : j < 32) : invIndex j < 32 := by
  unfold invIndex
  omega

@[simp] theorem invIndex_fwdIndex {i : Nat} (hi : i < 32) : invIndex (fwdIndex i) = i := by
  unfold invIndex fwdIndex
  omega

@[simp] theorem fwdIndex_invIndex {j : Nat} (hj : j < 32) : fwdIndex (invIndex j) = j := by
  unfold invIndex fwdIndex
  omega

/-- Bit `c` of byte `r` goes to bit `r` of nibble `c` (R124). -/
theorem fwdIndex_byte (r : Nat) {c : Nat} (hc : c < 8) : fwdIndex (8 * r + c) = 4 * c + r := by
  unfold fwdIndex
  omega

/-- Bit `r` of nibble `c` comes from bit `c` of byte `r` (R124). -/
theorem invIndex_nibble (c : Nat) {r : Nat} (hr : r < 4) : invIndex (4 * c + r) = 8 * r + c := by
  unfold invIndex
  omega

/-- Below 31 the index map multiplies by 4 modulo 31: `4*i = 31*(i div 8) + p(i)` (R127). -/
theorem fwdIndex_eq_four_mul_mod {i : Nat} (hi : i < 31) : fwdIndex i = 4 * i % 31 := by
  unfold fwdIndex
  omega

/-- Settles O25: the eight cycles are a finite table, and the products are `fwdIndex_eq_four_mul_mod`. -/
theorem forwardCyclesAreThoseListed : Obligations.ForwardCyclesAreThoseListed :=
  ⟨by decide, by decide, fun _ => fwdIndex_eq_four_mul_mod⟩

/-! ## The permutations from the input side, and one after the other -/

/-- `fwd(w)[p(i)] = w[i]`, as the loop of R121 writes it. -/
theorem fwd_getLsbD_in (w : Word) {i : Nat} (hi : i < 32) : (fwd w).getLsbD (fwdIndex i) = w.getLsbD i := by
  rw [fwd_getLsbD_out w _ (fwdIndex_lt hi), invIndex_fwdIndex hi]

/-- `inv(e)[q(j)] = e[j]`, as the loop of R141 writes it. -/
theorem inv_getLsbD_in (e : Word) {j : Nat} (hj : j < 32) : (inv e).getLsbD (invIndex j) = e.getLsbD j := by
  rw [inv_getLsbD_out e _ (invIndex_lt hj), fwdIndex_invIndex hj]

@[simp] theorem inv_fwd (w : Word) : inv (fwd w) = w :=
  BitVec.eq_of_getLsbD_eq fun i hi => by rw [inv_getLsbD_out _ i hi, fwd_getLsbD_in w hi]

@[simp] theorem fwd_inv (e : Word) : fwd (inv e) = e :=
  BitVec.eq_of_getLsbD_eq fun j hj => by rw [fwd_getLsbD_out _ j hj, inv_getLsbD_in e hj]

theorem fwd_bijective : Function.Bijective fwd :=
  Function.bijective_iff_has_inverse.mpr ⟨inv, inv_fwd, fwd_inv⟩

/-- Settles O18: the word is `fwd w`, and its bits are those of the loop read from the input side and from the output
side. -/
theorem fwdEmitsForwardPermutation : Obligations.FwdEmitsForwardPermutation :=
  ⟨decode_append 0x8#4, fun _ => rfl,
    fun _ w => ⟨fwd w, rfl, rfl, fun _ => fwd_getLsbD_in w, fwd_getLsbD_out w⟩⟩

/-- Settles O21: the index maps undo each other on 0..31, and `inv` undoes `fwd` on the words. -/
theorem forwardMapIsBijection : Obligations.ForwardMapIsBijection :=
  ⟨fun _ hi => ⟨fwdIndex_lt hi, invIndex_fwdIndex hi⟩, fun _ hj => ⟨invIndex_lt hj, fwdIndex_invIndex hj⟩,
    fwd_bijective⟩

/-! ## Words with one bit set -/

theorem one_shiftLeft_getLsbD (i : Nat) {k : Nat} (hk : k < 32) : (1#32 <<< i).getLsbD k = decide (i = k) := by
  rw [← BitVec.twoPow_eq, BitVec.getLsbD_twoPow]
  by_cases h : i = k <;> simp [h, hk]

theorem fwd_one_shiftLeft {i : Nat} (hi : i < 32) : fwd (1#32 <<< i) = 1#32 <<< fwdIndex i := by
  apply BitVec.eq_of_getLsbD_eq
  intro j hj
  have hiff : i = invIndex j ↔ fwdIndex i = j :=
    ⟨fun h => by rw [h, fwdIndex_invIndex hj], fun h => by rw [← h, invIndex_fwdIndex hi]⟩
  rw [fwd_getLsbD_out _ j hj, one_shiftLeft_getLsbD i (invIndex_lt hj), one_shiftLeft_getLsbD _ hj, decide_eq_decide]
  exact hiff

/-- Settles O23: `fwd_one_shiftLeft`, undone by `inv`. -/
theorem forwardMovesSingleBits : Obligations.ForwardMovesSingleBits := fun i hi =>
  ⟨fwd_one_shiftLeft hi, by rw [← fwd_one_shiftLeft hi, inv_fwd]⟩

/-! ## The permutation matrix -/

theorem permMatrix_eq_true {j i : Nat} : permMatrix j i = true ↔ j = fwdIndex i := beq_iff_eq

/-- Row `j` of the matrix has its 1 in column `q(j)`. -/
theorem permMatrix_eq_decide {j i : Nat} (hj : j < 32) (hi : i < 32) : permMatrix j i = decide (i = invIndex j) := by
  rw [Bool.eq_iff_iff, permMatrix_eq_true, decide_eq_true_iff]
  exact ⟨fun h => by rw [h, invIndex_fwdIndex hi], fun h => by rw [h, fwdIndex_invIndex hj]⟩

/-- The OR of the ANDs of a vector with a row that holds a single 1 picks out one entry. -/
theorem any_range_and_eq {n k : Nat} (hk : k < n) {row : Nat → Bool} (hrow : ∀ i < n, row i = decide (i = k))
    (v : Nat → Bool) : (List.range n).any (fun i => row i && v i) = v k := by
  rw [Bool.eq_iff_iff, List.any_eq_true]
  constructor
  · rintro ⟨i, hi, h⟩
    rw [hrow i (List.mem_range.mp hi), Bool.and_eq_true, decide_eq_true_iff] at h
    obtain ⟨rfl, hv⟩ := h
    exact hv
  · intro hv
    exact ⟨k, List.mem_range.mpr hk, by simp [hrow k hk, hv]⟩

/-! ## The order of the permutation -/

/-- On 0..31 four steps of `q` are one step of `p`: the order of the index maps is five. -/
theorem invIndex_four_times : ∀ i < 32, invIndex (invIndex (invIndex (invIndex i))) = fwdIndex i := by decide

theorem fwd_four_times (w : Word) : fwd (fwd (fwd (fwd w))) = inv w := by
  apply BitVec.eq_of_getLsbD_eq
  intro i hi
  have h1 := invIndex_lt hi
  have h2 := invIndex_lt h1
  have h3 := invIndex_lt h2
  rw [fwd_getLsbD_out _ _ hi, fwd_getLsbD_out _ _ h1, fwd_getLsbD_out _ _ h2, fwd_getLsbD_out _ _ h3,
    invIndex_four_times i hi, inv_getLsbD_out w i hi]

theorem fwd_five_times (w : Word) : fwd (fwd (fwd (fwd (fwd w)))) = w := by
  rw [fwd_four_times, inv_fwd]

theorem inv_five_times (e : Word) : inv (inv (inv (inv (inv e)))) = e := by
  calc inv (inv (inv (inv (inv e)))) = inv (inv (inv (inv (inv (fwd (fwd (fwd (fwd (fwd e))))))))) := by
        rw [fwd_five_times]
    _ = e := by simp only [inv_fwd]

/-- Settles O24: the 1 of row `j` stands in column `q(j)` and the 1 of column `i` in row `p(i)`, so the products with
the matrix and its transpose pick out the bits of `fwd` and `inv`; the order is `fwd_four_times` and what follows from
it. -/
theorem permutationMatrixAndOrder : Obligations.PermutationMatrixAndOrder := by
  refine ⟨fun j hj => ?_, fun i hi => ?_, fun w j hj => ?_, fun e i hi => ?_,
    fun w => ⟨fwd_five_times w, fwd_four_times w, inv_five_times w⟩⟩
  · refine ⟨invIndex j, invIndex_lt hj, permMatrix_eq_true.mpr (fwdIndex_invIndex hj).symm, fun k hk h => ?_⟩
    rw [permMatrix_eq_true.mp h, invIndex_fwdIndex hk]
  · exact ⟨fwdIndex i, fwdIndex_lt hi, permMatrix_eq_true.mpr rfl, fun k _ h => permMatrix_eq_true.mp h⟩
  · rw [any_range_and_eq (invIndex_lt hj) (fun i hi => permMatrix_eq_decide hj hi), fwd_getLsbD_out w j hj]
  · rw [any_range_and_eq (row := fun j => permMatrix j i) (fwdIndex_lt hi) (fun _ _ => rfl), inv_getLsbD_out e i hi]

end Sys2Proof.Machine
end

section
/-! What holds for every rewiring of the bits of a word, so for both permutations (41_transposer.md R126,
42_inverse_transposer.md R146): the bitwise operations and the number of 1 bits. -/

namespace Sys2Proof.Machine

/-- Bit `j` of `f w` is bit `source j` of `w`, whatever `w` holds, and every bit is the source of one bit. -/
structure Rewires (f : Word → Word) (source : Nat → Nat) : Prop where
  bit : ∀ w : Word, ∀ j < 32, (f w).getLsbD j = w.getLsbD (source j)
  perm : ((List.range 32).map source).Perm (List.range 32)

theorem rewires_fwd : Rewires fwd invIndex := ⟨fwd_getLsbD_out, by decide⟩

theorem rewires_inv : Rewires inv fwdIndex := ⟨inv_getLsbD_out, by decide⟩

theorem onesCount_eq_countP (w : Word) : onesCount w = (List.range 32).countP w.getLsbD :=
  List.countP_eq_length_filter.symm

namespace Rewires

variable {f : Word → Word} {source : Nat → Nat} (h : Rewires f source)
include h

theorem source_lt {j : Nat} (hj : j < 32) : source j < 32 :=
  List.mem_range.mp (h.perm.mem_iff.mp (List.mem_map_of_mem (List.mem_range.mpr hj)))

/-- A bitwise operation may be done before or after the rewiring: it reads its arguments at one index. -/
theorem map₂ {op : Word → Word → Word} {g : Bool → Bool → Bool}
    (hop : ∀ x y : Word, ∀ k < 32, (op x y).getLsbD k = g (x.getLsbD k) (y.getLsbD k)) (a b : Word) :
    f (op a b) = op (f a) (f b) := by
  apply BitVec.eq_of_getLsbD_eq
  intro j hj
  rw [h.bit _ j hj, hop _ _ _ (h.source_lt hj), hop _ _ _ hj, h.bit a j hj, h.bit b j hj]

theorem map_or (a b : Word) : f (a ||| b) = f a ||| f b :=
  h.map₂ (fun _ _ _ _ => BitVec.getLsbD_or) a b

theorem map_and (a b : Word) : f (a &&& b) = f a &&& f b :=
  h.map₂ (fun _ _ _ _ => BitVec.getLsbD_and) a b

theorem map_xor (a b : Word) : f (a ^^^ b) = f a ^^^ f b :=
  h.map₂ (fun _ _ _ _ => BitVec.getLsbD_xor) a b

theorem map_not (a : Word) : f (~~~a) = ~~~(f a) :=
  h.map₂ (op := fun x _ => ~~~x) (g := fun x _ => !x)
    (fun _ _ k hk => by rw [BitVec.getLsbD_not, decide_eq_true hk, Bool.true_and]) a a

theorem onesCount_eq (a : Word) : onesCount (f a) = onesCount a := by
  rw [onesCount_eq_countP, onesCount_eq_countP]
  calc (List.range 32).countP (f a).getLsbD
      = (List.range 32).countP (a.getLsbD ∘ source) :=
        List.countP_congr fun j hj => by rw [h.bit a j (List.mem_range.mp hj), Function.comp]
    _ = ((List.range 32).map source).countP a.getLsbD := List.countP_map.symm
    _ = (List.range 32).countP a.getLsbD := h.perm.countP_eq _

end Rewires

/-- Settles O22: both permutations rewire the bits of a word. -/
theorem permutationsIgnoreContent : Obligations.PermutationsIgnoreContent := by
  intro f hf a b
  have hwires : ∃ source, Rewires f source := by
    obtain rfl | rfl : f = fwd ∨ f = inv := by simpa using hf
    · exact ⟨_, rewires_fwd⟩
    · exact ⟨_, rewires_inv⟩
  obtain ⟨source, h⟩ := hwires
  exact ⟨h.map_or a b, h.map_and a b, h.map_xor a b, h.map_not a, h.onesCount_eq a⟩

end Sys2Proof.Machine
end

section
/-! The other views of the permutations (41_transposer.md R122 to R124, 42_inverse_transposer.md R142, R143): the bit
matrix, the nibbles and the bytes; and the words of a 7-bit text (R130). -/

namespace Sys2Proof.Machine

/-! ## The matrix view -/

/-- The matrix of `rows` rows and `cols` columns with entry `entry r c` in row `r`, column `c`. -/
def matrixOf (rows cols : Nat) (entry : Nat → Nat → Bool) : List (List Bool) :=
  (List.range rows).map fun r => (List.range cols).map (entry r)

theorem transposeMatrix_bitMatrix (rows cols : Nat) (w : Word) :
    transposeMatrix cols (bitMatrix rows cols w) = matrixOf cols rows fun c r => w.getLsbD (cols * r + c) := by
  refine List.map_congr_left fun c hc => ?_
  rw [bitMatrix, List.map_map]
  refine List.map_congr_left fun r _ => ?_
  have hc' : c < cols := List.mem_range.mp hc
  simp [hc', -BitVec.getLsbD_eq_getElem]

/-- Read row-major, entry `j` stands in row `j / cols` and column `j % cols`. -/
theorem flatten_matrixOf (rows cols : Nat) (entry : Nat → Nat → Bool) :
    (matrixOf rows cols entry).flatten = (List.range (rows * cols)).map fun j => entry (j / cols) (j % cols) := by
  induction rows with
  | zero => simp [matrixOf]
  | succ rows ih =>
    have hlast : matrixOf (rows + 1) cols entry = matrixOf rows cols entry ++ [(List.range cols).map (entry rows)] := by
      simp [matrixOf, List.range_succ]
    rw [hlast, List.flatten_append, ih, List.flatten_singleton, Nat.succ_mul, List.range_add, List.map_append,
      List.map_map]
    refine congrArg _ (List.map_congr_left fun c hc => ?_)
    have hc' : c < cols := List.mem_range.mp hc
    simp [Nat.mul_add_div (Nat.zero_lt_of_lt hc'), Nat.mul_comm rows, Nat.div_eq_of_lt hc', Nat.mod_eq_of_lt hc']

theorem readRowMajor_matrixOf_getLsbD {rows cols : Nat} (hsize : rows * cols = 32) (entry : Nat → Nat → Bool)
    {j : Nat} (hj : j < 32) : (readRowMajor (matrixOf rows cols entry)).getLsbD j = entry (j / cols) (j % cols) := by
  rw [readRowMajor, BitVec.getLsbD_setWidth, BitVec.getLsbD_ofBoolListLE, flatten_matrixOf, hsize]
  simp [hj]

theorem fwdByMatrix_eq (w : Word) : fwdByMatrix w = fwd w := by
  apply BitVec.eq_of_getLsbD_eq
  intro j hj
  rw [fwdByMatrix, transposeMatrix_bitMatrix, readRowMajor_matrixOf_getLsbD rfl _ hj, fwd_getLsbD_out w j hj, invIndex]

theorem invByMatrix_eq (e : Word) : invByMatrix e = inv e := by
  apply BitVec.eq_of_getLsbD_eq
  intro i hi
  rw [invByMatrix, transposeMatrix_bitMatrix, readRowMajor_matrixOf_getLsbD rfl _ hi, inv_getLsbD_out e i hi, fwdIndex]

/-! ## Nibbles and bytes -/

/-- Bit `r` of nibble `c` of `fwd(w)` is bit `c` of byte `r` of `w`. -/
theorem fwd_getLsbD_nibble (w : Word) {c : Nat} (hc : c < 8) (r : Lane) :
    (fwd w).getLsbD (4 * c + r.toNat) = (lane w r).getLsbD c := by
  have hr := r.isLt
  rw [fwd_getLsbD_out w _ (by omega), invIndex_nibble c hr, lane_getLsbD, decide_eq_true hc, Bool.true_and, laneOffset]

/-- Bit `c` of byte `r` of `inv(w)` is bit `r` of nibble `c` of `w`. -/
theorem lane_inv_getLsbD (w : Word) {c : Nat} (hc : c < 8) (r : Lane) :
    (lane (inv w) r).getLsbD c = w.getLsbD (4 * c + r.toNat) := by
  rw [← fwd_getLsbD_nibble (inv w) hc r, fwd_inv]

/-- Settles O26: the tables are finite lists, and the matrix view and the nibble view are the permutations bit by
bit. -/
theorem allViewsOfThePermutationsAgree : Obligations.AllViewsOfThePermutationsAgree :=
  ⟨rfl, rfl, fun w => ⟨permuteByTable_fwdTable w, permuteByTable_invTable w, fwdByMatrix_eq w, invByMatrix_eq w,
    fun _ hc r => ⟨fwd_getLsbD_nibble w hc r, lane_inv_getLsbD w hc r⟩⟩⟩

/-! ## 7-bit texts -/

theorem toNat_lt_two_pow_iff {n : Nat} (x : BitVec n) (k : Nat) :
    x.toNat < 2 ^ k ↔ ∀ i, k ≤ i → x.getLsbD i = false :=
  ⟨fun h _ hi => Nat.testBit_eq_false_of_lt (h.trans_le (Nat.pow_le_pow_right (by decide) hi)),
    Nat.lt_pow_two_of_testBit _⟩

theorem byte_lt_128_iff (b : Byte) : b.toNat < 128 ↔ b.getLsbD 7 = false := by
  have hmsb := BitVec.msb_eq_false_iff_two_mul_lt (x := b)
  rw [BitVec.msb_eq_getLsbD_last] at hmsb
  rw [hmsb]
  omega

/-- The top nibble of `fwd(w)` holds the top bits of the four bytes of `w`. -/
theorem fwd_lt_iff_lanes_lt (w : Word) : (fwd w).toNat < 2 ^ 28 ↔ ∀ k : Lane, (lane w k).toNat < 128 := by
  simp only [byte_lt_128_iff, ← fwd_getLsbD_nibble w (c := 7) (by decide)]
  rw [toNat_lt_two_pow_iff]
  constructor
  · intro h k
    exact h _ (Nat.le_add_right 28 _)
  · intro h i hi
    by_cases hlt : i < 32
    · have hk : 4 * 7 + (BitVec.ofNat 2 (i - 28)).toNat = i := by
        rw [BitVec.toNat_ofNat]
        omega
      rw [← hk]
      exact h _
    · exact BitVec.getLsbD_of_ge _ _ (Nat.not_lt.mp hlt)

/-- In a 7-bit text every byte is below 128, and so is the zero that fills the lanes past its end. -/
theorem getD_lt_of_ascii {t : List Byte} (ht : Config.ascii t = true) (k : Nat) : (t.getD k 0#8).toNat < 128 := by
  by_cases hk : k < t.length
  · rw [List.getD_eq_getElem _ _ hk]
    exact of_decide_eq_true (List.all_eq_true.mp ht _ (List.getElem_mem hk))
  · rw [List.getD_eq_default _ _ (Nat.not_lt.mp hk)]
    decide

/-- Settles O27: the words of an encoded text are `fwd` of its packed words, whose lanes are bytes of the text. -/
theorem sevenBitTextEncodesBelow2Pow28 : Obligations.SevenBitTextEncodesBelow2Pow28 := by
  refine ⟨fwd_lt_iff_lanes_lt, fun t ht e he => ?_⟩
  rw [encodeText, pack, List.map_map, List.mem_map] at he
  obtain ⟨k, -, rfl⟩ := he
  refine (fwd_lt_iff_lanes_lt _).mpr fun b => ?_
  rw [lane_packedWord]
  exact getD_lt_of_ascii ht _

end Sys2Proof.Machine
end

section
/-! The inverse permutation as the operation of INV, and as the inverse of `fwd` (42_inverse_transposer.md R140, R141,
R144). -/

namespace Sys2Proof.Machine

theorem inv_bijective : Function.Bijective inv :=
  Function.bijective_iff_has_inverse.mpr ⟨fwd, fwd_inv, inv_fwd⟩

/-- Settles O19: the word is `inv e`, and its bits are those of the loop read from the input side and from the output
side. -/
theorem invEmitsInversePermutation : Obligations.InvEmitsInversePermutation :=
  ⟨decode_append 0x9#4, fun _ => rfl,
    fun _ e => ⟨inv e, rfl, rfl, fun _ => inv_getLsbD_in e, inv_getLsbD_out e⟩⟩

/-- Settles O20: the index maps undo each other on 0..31, so the permutations do on the words. -/
theorem permutationsUndoEachOther : Obligations.PermutationsUndoEachOther :=
  ⟨inv_fwd, fwd_inv, inv_bijective⟩

end Sys2Proof.Machine
end

section
/-! The commands of the CORE level one at a time (43_core_codec.md R160 to R164): NOP, ENCB, ENCF and DECW with their
encodings, and the composites as packer commands with a permutation wired in. -/

namespace Sys2Proof.Machine

/-! ## NOP -/

/-- Settles O28: the decoder reads the operation code only, and an edge without a command executes NOP. -/
theorem nopDoesNothing : Obligations.NopDoesNothing := by
  have hnop (s : State) : exec .nop s = .next (s.emit .silent) := exec_of_leavesGroup rfl s
  refine ⟨decode_append 0x0#4, rfl, hnop, fun s p hrst hvalid => ?_⟩
  rw [clockEdge_eq_ite, hrst, hvalid]
  exact hnop s

/-! ## ENCB, ENCF and DECW -/

/-- Settles O29: the decoder reads `data[7:0]` only, and the two branches are those of `State.takeByte` routed
through `fwd`. -/
theorem encbTakesOneByte : Obligations.EncbTakesOneByte := by
  refine ⟨fun x b => ?_, fun b => rfl, fun s b => ⟨fun hcnt => ?_, fun hcnt => ?_⟩⟩
  · exact (decode_append 0xA#4 (x ++ b)).trans (congrArg Instr.encb (byteField_append 0xA#4 x b))
  · exact congrArg Host.Outcome.next (s.takeByte_of_not_full fwd b hcnt)
  · exact congrArg Host.Outcome.next (s.takeByte_of_full fwd b hcnt)

/-- Settles O30: the decoder reads the operation code only, and the two cases are those of `State.endText` routed
through `fwd`. -/
theorem encfEndsText : Obligations.EncfEndsText := by
  refine ⟨decode_append 0xB#4, rfl, fun s => ⟨fun hcnt => ?_, fun hcnt => ?_⟩⟩
  · exact congrArg Host.Outcome.next (s.endText_of_pending fwd hcnt)
  · exact congrArg Host.Outcome.next (s.endText_of_idle fwd hcnt)

/-- Settles O31: the mask is `nonzeroLanes (inv e)`, and the bytes are those UNPACK of `inv e` outputs. -/
theorem decwOutputsNonzeroLanes : Obligations.DecwOutputsNonzeroLanes :=
  ⟨decode_append 0xC#4, fun _ => rfl,
    fun _ e => ⟨nonzeroLanes (inv e), nonzeroLanes_getLsbD (inv e), rfl, bytes_nonzeroLanes (inv e)⟩⟩

/-! ## The composites add wiring only -/

theorem groupAfter_encb (b : Byte) : groupAfter (.encb b) = groupAfter (.push b) := rfl

theorem groupAfter_encf : groupAfter .encf = groupAfter .flush := rfl

theorem resultOf_encb (b : Byte) (a : Word) (n : Lane) :
    resultOf (.encb b) a n = (resultOf (.push b) a n).mapWord fwd :=
  (apply_ite (Result.mapWord fwd) (n = 3#2) (.word (a ||| place b n)) .silent).symm

theorem resultOf_encf (a : Word) (n : Lane) : resultOf .encf a n = (resultOf .flush a n).mapWord fwd :=
  (apply_ite (Result.mapWord fwd) (n = 0#2) .silent (.word a)).symm

/-- Commands that leave the same registers, the second with the result of the first sent through `fwd`, differ in the
result they record only. -/
theorem exec_differ_in_result {i j : Instr} (hgroup : groupAfter j = groupAfter i)
    (hresult : ∀ a n, resultOf j a n = (resultOf i a n).mapWord fwd) (s : State) :
    ∃ (t : State) (r : Result), exec i s = .next { t with results := s.results ++ [r] } ∧
      exec j s = .next { t with results := s.results ++ [r.mapWord fwd] } := by
  refine ⟨_, resultOf i s.acc s.cnt, exec_eq i s, ?_⟩
  rw [exec_eq, hgroup, hresult]
  rfl

/-- Settles O32: ENCB and ENCF leave the registers of PUSH and FLUSH and permute their result; DECW is UNPACK of
`inv e` by its meaning. -/
theorem compositesAddOnlyWiring : Obligations.CompositesAddOnlyWiring :=
  ⟨fun s b => exec_differ_in_result (groupAfter_encb b) (resultOf_encb b) s,
    exec_differ_in_result groupAfter_encf resultOf_encf, fun _ _ => rfl⟩

end Sys2Proof.Machine
end

section
/-! A full group brought in by PUSH and ENCB in any mixture (20_memory.md R47, 43_core_codec.md R165): four bytes make
a word, the first in the least significant lane. -/

namespace Sys2Proof.Machine

/-! ## A word and its lanes -/

theorem lane_xor (v w : Word) (k : Lane) : lane (v ^^^ w) k = lane v k ^^^ lane w k := by
  simp [lane, BitVec.ushiftRight_xor_distrib, BitVec.setWidth_xor]

/-- A word is determined by its lanes. -/
theorem eq_of_lanes_eq {v w : Word} (h : ∀ k : Lane, lane v k = lane w k) : v = w := by
  refine BitVec.xor_eq_zero_iff.mp (eq_zero_of_lanes_eq_zero fun k => ?_)
  rw [lane_xor, h, BitVec.xor_self]

/-- Byte `k` from the right of four bytes put together is lane `k`. -/
theorem lane_append (b0 b1 b2 b3 : Byte) (k : Lane) :
    lane (b3 ++ b2 ++ b1 ++ b0) k = [b0, b1, b2, b3].getD k.toNat 0#8 := by
  apply BitVec.eq_of_getLsbD_eq
  intro i hi
  simp only [lane_getLsbD, BitVec.getLsbD_append, laneOffset]
  rcases lane_cases k with rfl | rfl | rfl | rfl <;> grind

/-- Placing four bytes in their lanes puts them together little-endian (R47). -/
theorem mergedBytes_eq_append (b0 b1 b2 b3 : Byte) : mergedBytes b0 b1 b2 b3 = b3 ++ b2 ++ b1 ++ b0 :=
  eq_of_lanes_eq fun k => (lane_mergedBytes b0 b1 b2 b3 k).trans (lane_append b0 b1 b2 b3 k).symm

/-- A word is its four lanes, each in its place. -/
theorem mergedBytes_lanes (w : Word) : mergedBytes (lane w 0#2) (lane w 1#2) (lane w 2#2) (lane w 3#2) = w := by
  refine eq_of_lanes_eq fun k => (lane_mergedBytes _ _ _ _ k).trans ?_
  rcases lane_cases k with rfl | rfl | rfl | rfl <;> rfl

/-! ## Either command brings in a byte -/

theorem groupAfter_encb_or_push (e : Bool) (b : Byte) :
    groupAfter (if e then .encb b else .push b) = groupAfter (.push b) := by
  cases e <;> rfl

theorem resultOf_encb_or_push (e : Bool) (b : Byte) (a : Word) (n : Lane) :
    resultOf (if e then .encb b else .push b) a n = (if n = 3#2 then
      .word (if e then fwd (a ||| place b n) else a ||| place b n) else .silent) := by
  cases e <;> rfl

/-- Commands that lead from the registers at the start of a text back to them: their run from such a state adds their
results and changes nothing else but what is in hand. -/
theorem run_presentAll_of_atTextStart {is : List Instr} {s : State} {ps : List InPins} (hstart : s.AtTextStart)
    (hpending : s.pending = presentAll is ++ ps)
    (hends : groupRun (presentAll is) (0#32, 0#2) = (0#32, 0#2)) :
    core.run is.length s =
      .next { s with pending := ps, results := s.results ++ resultsRun (presentAll is) (0#32, 0#2) } := by
  obtain ⟨⟨a, n⟩, q, rs⟩ := s
  obtain ⟨rfl, rfl⟩ : a = 0#32 ∧ n = 0#2 := hstart
  have hrun := run_pins _ ps _ hpending
  rwa [presentAll_length, hends] at hrun

/-- Settles O33: each command takes its byte as PUSH does, and only the fourth answers a word, which
`resultOf_encb_or_push` permutes by the kind of that command alone. -/
theorem leavingCommandDecidesPermutation : Obligations.LeavingCommandDecidesPermutation := by
  intro s ps e0 e1 e2 e3 b0 b1 b2 b3 hstart hpending
  have hrun := run_presentAll_of_atTextStart hstart hpending (by
    simp only [groupRun_presentAll_cons, groupAfter_encb_or_push]
    rfl)
  simp only [resultsRun_presentAll_cons, groupAfter_encb_or_push, resultOf_encb_or_push] at hrun
  rw [← mergedBytes_eq_append]
  simpa [groupAfter, mergedBytes, presentAll, resultsRun] using hrun

end Sys2Proof.Machine
end

section
/-! Whole texts and word sequences on the CORE level (43_core_codec.md R167 to R173, R176): the runs that compute encode
and decode, and what the two functions give when they follow one another. -/

namespace Sys2Proof.Machine

/-! ## ENCB of every byte and an ENCF -/

theorem wordsOf_map_mapWord (f : Word → Word) (rs : List Result) :
    wordsOf (rs.map (Result.mapWord f)) = (wordsOf rs).map f := by
  have hword (r : Result) : (r.mapWord f).word? = r.word?.map f := by cases r <;> rfl
  simp only [wordsOf, List.filterMap_map, List.map_filterMap, Function.comp_def, hword]

/-- The composites leave the registers as the packer commands do. -/
theorem groupRun_encodeCommands (t : List Byte) (g : Word × Lane) :
    groupRun (presentAll (encodeCommands t)) g = groupRun (presentAll (packCommands t)) g := by
  induction t generalizing g with
  | nil => rfl
  | cons b t ih =>
    have henc : encodeCommands (b :: t) = .encb b :: encodeCommands t := rfl
    have hpack : packCommands (b :: t) = .push b :: packCommands t := rfl
    rw [henc, hpack, groupRun_presentAll_cons, groupRun_presentAll_cons, groupAfter_encb, ih]

/-- The composites answer what the packer commands answer, each word sent through `fwd`. -/
theorem resultsRun_encodeCommands (t : List Byte) (g : Word × Lane) :
    resultsRun (presentAll (encodeCommands t)) g =
      (resultsRun (presentAll (packCommands t)) g).map (Result.mapWord fwd) := by
  induction t generalizing g with
  | nil => exact congrArg (fun r => [r]) (resultOf_encf g.1 g.2)
  | cons b t ih =>
    have henc : encodeCommands (b :: t) = .encb b :: encodeCommands t := rfl
    have hpack : packCommands (b :: t) = .push b :: packCommands t := rfl
    rw [henc, hpack, resultsRun_presentAll_cons, resultsRun_presentAll_cons, groupAfter_encb, resultOf_encb, ih,
      List.map_cons]

theorem wordsOf_encodeCommands (t : List Byte) :
    wordsOf (resultsRun (presentAll (encodeCommands t)) (0#32, 0#2)) = encodeText t := by
  rw [resultsRun_encodeCommands, wordsOf_map_mapWord, wordsOf_packCommands, encodeText]

theorem encodeText_length (t : List Byte) : (encodeText t).length = ceilDiv t.length 4 := by
  rw [encodeText, List.length_map, pack_length]

theorem leavesGroup_of_mem_encodeCommands {t : List Byte} {i : Instr} (h : i ∈ encodeCommands t) :
    i.leavesGroup = false := by
  simp only [encodeCommands, List.mem_append, List.mem_map, List.mem_singleton] at h
  obtain ⟨b, -, rfl⟩ | rfl := h
  all_goals rfl

/-- Settles O41: the run of PUSH and FLUSH with its words sent through `fwd` (`resultsRun_encodeCommands`). -/
theorem encodeCommandsEmitEncode : Obligations.EncodeCommandsEmitEncode := by
  intro t s ps hstart hpending
  have hlen : (encodeCommands t).length = t.length + 1 := by simp [encodeCommands]
  have hwrites : ∀ i ∈ encodeCommands t, i.leavesGroup = false := fun _ => leavesGroup_of_mem_encodeCommands
  have hwords := wordsOf_encodeCommands t
  have hends := (groupRun_encodeCommands t (0#32, 0#2)).trans (groupRun_packCommands t _)
  have hrun := run_presentAll_of_atTextStart hstart hpending hends
  rw [hlen] at hrun
  exact ⟨_, hrun, hwords, (congrArg List.length hwords).trans (encodeText_length t),
    bytesOf_resultsRun_of_not_leavesGroup hwrites _, fun _ => isIllegal_of_mem_resultsRun hwrites⟩

/-! ## DECW of every word -/

/-- DECW of words answers what UNPACK of the words sent through `inv` answers. -/
theorem map_resultOf_decodeCommands (es : List Word) :
    (decodeCommands es).map (resultOf · 0#32 0#2) = unpackResults (es.map inv) := by
  simp only [decodeCommands, unpackResults, List.map_map]
  rfl

/-- Settles O43: DECW leaves the group alone, so the run adds `unpackResults` of the words sent through `inv` and
changes nothing else. -/
theorem decodeCommandsOutputDecode : Obligations.DecodeCommandsOutputDecode := by
  intro es s ps hpending
  have hpure : ∀ i ∈ decodeCommands es, i.leavesGroup = true := by simp [decodeCommands, Instr.leavesGroup]
  have hrun := run_presentAll_of_leavesGroup hpure hpending
  rw [map_resultOf_decodeCommands, decodeCommands, List.length_map] at hrun
  exact ⟨unpackResults (es.map inv), hrun, bytesOf_unpackResults _, wordsOf_unpackResults _,
    fun _ => isIllegal_of_mem_unpackResults⟩

/-! ## Encoding, then decoding -/

/-- `inv` undoes `fwd` word by word, and unpacking drops the zero bytes. -/
theorem decodeWords_encodeText (t : List Byte) : decodeWords (encodeText t) = t.filter (fun b => b != 0#8) := by
  rw [decodeWords, encodeText, List.map_map, Function.LeftInverse.comp_eq_id inv_fwd, List.map_id, unpack_pack]

theorem filter_of_nulFree {t : List Byte} (ht : Config.nulFree t = true) : t.filter (fun b => b != 0#8) = t :=
  List.filter_eq_self.mpr (List.all_eq_true.mp ht)

/-- The run that encodes a text ends where a text begins. -/
theorem run_encodeCommands (t : List Byte) {s : State} (hstart : s.AtTextStart) :
    ∃ (u : State) (rs : List Result),
      core.run (t.length + 1) (s.setPending (presentAll (encodeCommands t))) = .next u ∧ u.AtTextStart ∧
      u.results = s.results ++ rs ∧ wordsOf rs = encodeText t ∧ ∀ r ∈ rs, r.isIllegal = false := by
  obtain ⟨rs, hrun, hwords, -, -, hrs⟩ :=
    encodeCommandsEmitEncode t (s.setPending (presentAll (encodeCommands t))) [] hstart (List.append_nil _).symm
  exact ⟨_, rs, hrun, hstart, rfl, hwords, hrs⟩

/-- The run that decodes words keeps the registers. -/
theorem run_decodeCommands (es : List Word) (s : State) :
    ∃ (u : State) (rs : List Result),
      core.run es.length (s.setPending (presentAll (decodeCommands es))) = .next u ∧ u.cnt = s.cnt ∧
      u.results = s.results ++ rs ∧ bytesOf rs = decodeWords es ∧ ∀ r ∈ rs, r.isIllegal = false := by
  obtain ⟨rs, hrun, hbytes, -, hrs⟩ :=
    decodeCommandsOutputDecode es (s.setPending (presentAll (decodeCommands es))) [] (List.append_nil _).symm
  exact ⟨_, rs, hrun, rfl, rfl, hbytes, hrs⟩

/-- A run that leaves no byte waiting and adds no fault ends clean if the record held none before it (R176). -/
theorem State.endsClean_of_append {s u : State} {rs : List Result} (hcnt : u.cnt = 0#2)
    (hresults : u.results = s.results ++ rs) (hs : s.faultRecorded = false) (hrs : ∀ r ∈ rs, r.isIllegal = false) :
    u.EndsClean := by
  have hany : rs.any Result.isIllegal = false := by simpa using hrs
  refine ⟨hcnt, ?_⟩
  rw [State.faultRecorded, hresults, List.any_append, ← State.faultRecorded, hs, hany, Bool.or_false]

/-- Settles O45: the first run emits `encodeText t` and the second outputs what `decodeWords` makes of it, which
`decodeWords_encodeText` says is the text without its zero bytes. -/
theorem encodeThenDecodeRoundTrip : Obligations.EncodeThenDecodeRoundTrip := by
  intro t s hstart hclean
  obtain ⟨u, rs, hrunU, ⟨-, hcntU⟩, hresU, hwords, hrs⟩ := run_encodeCommands t hstart
  obtain ⟨v, qs, hrunV, hcntV, hresV, hbytes, hqs⟩ := run_decodeCommands (wordsOf rs) u
  have hcleanU : u.EndsClean := State.endsClean_of_append hcntU hresU hclean hrs
  have hcleanV : v.EndsClean := State.endsClean_of_append (hcntV.trans hcntU) hresV hcleanU.2 hqs
  rw [hwords, decodeWords_encodeText] at hbytes
  exact ⟨u, v, rs, qs, hrunU, hresU, hcleanU, hrunV, hresV, hcleanV, hbytes,
    fun ht => hbytes.trans (filter_of_nulFree ht)⟩

/-! ## Which words are encodings -/

/-- The lanes of the words in order: the text, zero bytes kept, that packs into them. -/
def lanesText (ws : List Word) : List Byte := ws.flatMap (fun w => allLanes.map (lane w))

theorem pack_lanesText (ws : List Word) : pack (lanesText ws) = ws := by
  induction ws with
  | nil => rfl
  | cons w ws ih =>
    have hcons : lanesText (w :: ws) = lane w 0#2 :: lane w 1#2 :: lane w 2#2 :: lane w 3#2 :: lanesText ws := rfl
    rw [hcons, pack_cons4, BitVec.zero_or, ← mergedBytes, mergedBytes_lanes, ih]

theorem encodeText_lanesText (es : List Word) : encodeText (lanesText (es.map inv)) = es := by
  rw [encodeText, pack_lanesText, List.map_map, Function.LeftInverse.comp_eq_id fwd_inv, List.map_id]

/-- The word 0 decodes to no byte (R173). -/
theorem decodeWords_zero : decodeWords [0#32] = [] := by decide

/-- Settles O46: the rule's examples are evaluated, and the word 0 is lost by decoding. -/
theorem decodeIsNotInjective : Obligations.DecodeIsNotInjective := by
  refine ⟨by decide, by decide, by decide, [0#32], ?_⟩
  rw [decodeWords_zero]
  exact (List.cons_ne_nil 0#32 []).symm

/-- A text without a zero byte is what its encoding decodes to, so only the empty one could encode to the word 0. -/
theorem encodeText_ne_zero_of_nulFree {t : List Byte} (ht : Config.nulFree t = true) : encodeText t ≠ [0#32] := by
  intro henc
  have hdec := decodeWords_encodeText t
  rw [henc, decodeWords_zero, filter_of_nulFree ht] at hdec
  rw [← hdec] at henc
  exact (List.cons_ne_nil 0#32 []).symm henc

/-- Settles O58: the lanes of the packed words encode to any given words; the word 0 is no encoding of a text without a
zero byte, and `2^28` is beyond every 7-bit text. -/
theorem encodeIsOntoOnlyWithEveryByte : Obligations.EncodeIsOntoOnlyWithEveryByte := by
  refine ⟨fun es => ⟨lanesText (es.map inv), encodeText_lanesText es⟩,
    ⟨[0#32], fun t => encodeText_ne_zero_of_nulFree⟩, ⟨[0x10000000#32], fun t ht henc => ?_⟩⟩
  have hlt := sevenBitTextEncodesBelow2Pow28.2 t ht 0x10000000#32 (by simp [henc])
  exact absurd hlt (by decide)

end Sys2Proof.Machine
end

section
/-! The one exception over steps and runs (60_exceptions.md R190, R193 to R195): which clock edges raise it, and what a
run keeps of it. -/

namespace Sys2Proof.Machine

/-! ## Which clock edges raise the exception -/

theorem Result.pins_err (r : Result) : r.pins.err = r.isIllegal := by
  cases r with
  | silent | word _ | lanes _ _ | illegalCommand _ => rfl

/-- A command faults exactly when no command source shall issue it (R65). -/
theorem isIllegal_resultOf (i : Instr) (a : Word) (n : Lane) : (resultOf i a n).isIllegal = !i.wellFormed := by
  cases i with
  | push _ | flush | encb _ | encf =>
    simp only [resultOf]
    split <;> rfl
  | nop | unpack _ | lane _ _ | fwd _ | inv _ | decw _ | reservedD | reservedE | reservedF => rfl

/-- The reserved codes are those from `0xD` on (R190). -/
theorem wellFormed_decode (c : Cmd) : (decode c).wellFormed = !decide (0xD ≤ (opField c).toNat) := by
  obtain ⟨op, w, rfl⟩ := exists_eq_append c
  rw [decode_append, opField_append]
  obtain rfl | rfl | rfl | rfl | rfl | rfl | rfl | rfl | rfl | rfl | rfl | rfl | rfl | rfl | rfl | rfl :=
    opCode_cases op
  all_goals rfl

theorem isIllegal_edgeResult_iff (p : InPins) (a : Word) (n : Lane) :
    (edgeResult p a n).isIllegal = true ↔
      p.rst = false ∧ p.cmdValid = true ∧ 0xD ≤ (opField p.cmd).toNat := by
  obtain ⟨rst, cmdValid, c⟩ := p
  cases rst with
  | true => simp [edgeResult_of_rst, Result.isIllegal]
  | false =>
    cases cmdValid with
    | false => simp [edgeResult_of_idle, Result.isIllegal]
    | true =>
      have hresult : edgeResult ⟨false, true, c⟩ a n = resultOf (decode c) a n := edgeResult_present c a n
      simp [hresult, isIllegal_resultOf, wellFormed_decode]

/-- Settles O35: `err` is that of the one result of the step (`outPins_of_step`), and an edge answers the fault exactly
when it executes a reserved code. -/
theorem errExactlyOnReservedCodes : Obligations.ErrExactlyOnReservedCodes := by
  intro s t hstep
  rw [outPins_of_step hstep, Result.pins_err]
  exact isIllegal_edgeResult_iff s.drivenPins s.acc s.cnt

/-! ## What a run of any length adds to the record -/

/-- A step appends one result, and neither that result nor what else the step leaves depends on what was recorded
before it (R27). -/
theorem step_appends_result (g : Registers) (ps : List InPins) :
    ∃ (h : Registers) (r : Result),
      ∀ past : List Result, step ⟨g, ps, past⟩ = .next ⟨h, ps.tail, past ++ [r]⟩ :=
  ⟨⟨(edgeGroup (ps.headD .idle) g.acc g.cnt).1, (edgeGroup (ps.headD .idle) g.acc g.cnt).2⟩,
    edgeResult (ps.headD .idle) g.acc g.cnt, fun past => step_eq ⟨g, ps, past⟩⟩

/-- The same for a run. Where `run_pins` needs the pins in hand, here the run may outlast them or leave some. -/
theorem run_appends_results (n : Nat) (g : Registers) (ps : List InPins) :
    ∃ (h : Registers) (qs : List InPins) (rs : List Result), rs.length = n ∧
      ∀ past : List Result, core.run n ⟨g, ps, past⟩ = .next ⟨h, qs, past ++ rs⟩ := by
  induction n generalizing g ps with
  | zero => exact ⟨g, ps, [], rfl, fun past => by rw [run_zero, List.append_nil]⟩
  | succ n ih =>
    obtain ⟨g', r, hstep⟩ := step_appends_result g ps
    obtain ⟨h, qs, rs, hlength, hrun⟩ := ih g' ps.tail
    refine ⟨h, qs, r :: rs, by rw [List.length_cons, hlength], fun past => ?_⟩
    rw [run_succ _ _ _ (hstep past), hrun, ← List.append_cons]

/-- Settles O36: a run only appends to the results, and a fault among the earlier ones stays there. -/
theorem faultRecordIsNeverCleared : Obligations.FaultRecordIsNeverCleared := by
  intro n s hfault
  obtain ⟨g, qs, rs, -, hrun⟩ := run_appends_results n s.toRegisters s.pending
  refine ⟨_, hrun s.results, ?_⟩
  rw [State.faultRecorded] at hfault ⊢
  rw [List.any_append, hfault, Bool.true_or]

/-! ## Going on after a fault -/

/-- A presented command that leaves the group alone adds its result, and the run goes on from the same registers. -/
theorem run_succ_of_leavesGroup {i : Instr} (hi : i.leavesGroup = true) (n : Nat) (s : State) (ps : List InPins) :
    core.run (n + 1) (s.setPending (presentAll [i] ++ ps)) =
      core.run n ((s.setPending ps).emit (resultOf i 0#32 0#2)) :=
  run_succ n _ _ ((step_of_presented rfl).trans (exec_of_leavesGroup hi _))

theorem leavesGroup_and_faults_of_reserved {i : Instr} (h : i ∈ [.reservedD, .reservedE, .reservedF]) :
    i.leavesGroup = true ∧ (resultOf i 0#32 0#2).isIllegal = true := by
  simp only [List.mem_cons, List.not_mem_nil, or_false] at h
  obtain rfl | rfl | rfl := h
  all_goals exact ⟨rfl, rfl⟩

/-- Settles O37: after their first step both runs have the same registers and the same pins to follow, and the one
result in which their records differ has no part in the rest (`run_appends_results`). -/
theorem faultingCommandActsAsNop : Obligations.FaultingCommandActsAsNop := by
  intro n s i ps hi
  obtain ⟨hgroup, hfault⟩ := leavesGroup_and_faults_of_reserved hi
  obtain ⟨g, qs, rs, hlength, hrun⟩ := run_appends_results n s.toRegisters ps
  exact ⟨_, _, resultOf i 0#32 0#2, rs, (run_succ_of_leavesGroup hgroup n s ps).trans (hrun _),
    (run_succ_of_leavesGroup rfl n s ps).trans (hrun _), rfl, rfl, rfl, hfault, hlength, rfl, rfl⟩

end Sys2Proof.Machine
end

section
/-! A reset step, whatever else the environment drives at it (70_reset_and_hazards.md R210). -/

namespace Sys2Proof.Machine

/-- A reset uses up its own pins and clears the registers; what `cmd_valid` and `cmd` hold has no part in it. -/
theorem step_of_rst {s : State} {p : InPins} {ps : List InPins} (h : s.pending = p :: ps) (hrst : p.rst = true) :
    step s = .next (s.setPending ps).resetStep := by
  rw [step_of_pending_cons h, clockEdge_of_rst _ hrst]

/-- Settles O5: the step is the reset step of `step_of_rst`, whose one result is silent, and a silent result drives
every output pin to 0. -/
theorem resetStepClearsAndIdles : Obligations.ResetStepClearsAndIdles := by
  intro s p ps hpending hrst
  exact ⟨_, step_of_rst hpending hrst, rfl, rfl, rfl, rfl, State.outPins_emit _ .silent⟩

end Sys2Proof.Machine
end
